-- ==== Sys2Proof/Config.lean ====
section
/-!
DEFINITION. The parameters of one instance of the CORE (00_scope.md rule R6, 92_eei_decisions.md 'Open parameters in one
place'). The spec leaves their values open, so each is an opaque constant: nothing proved of the machine depends on a
value. Every operation takes the parameters as an argument, so that it can also be run at chosen values.
-/

namespace Sys2Proof

/-- `ENC_TIE`: the tie rule of `ENC_FIX`'s round to nearest integer (40_bitfield_codec.md rule R93). -/
inductive TieRule where
  /-- `half_up`: `k + 1/2` goes to `k + 1`. -/
  | halfUp
  /-- `half_even`: `k + 1/2` goes to the even one of `k` and `k + 1`. -/
  | halfEven
  /-- `half_away`: `k + 1/2` goes away from zero. -/
  | halfAway
deriving DecidableEq, Repr, Inhabited

/-- A largest permitted value. It is at least `least`, which the spec guarantees; `above` is how far above `least` the
instance's maximum lies, `none` where the instance has no maximum (92_eei_decisions.md D12). -/
structure Maximum where
  least : Nat
  above : Option Nat
deriving DecidableEq, Repr

/-- The parameters of an instance (00_scope.md rule R6). -/
structure Params where
  /-- `EXP_BIAS`, a natural number. -/
  expBias : Nat
  /-- `ENC_TIE`. -/
  encTie : TieRule
  /-- `WMAX - 32`, or `none` for an unbounded width: `WMAX >= 32`. -/
  wmaxAbove : Option Nat
  /-- `NMAX - 1`, or `none` for an unbounded parallelism: `NMAX >= 1`. -/
  nmaxAbove : Option Nat
  /-- `LENMAX`, or `none` for unbounded lengths. -/
  lenmax : Option Nat
deriving DecidableEq, Repr

/-- `EXP_BIAS` of this instance (92_eei_decisions.md D7, OPEN). -/
opaque Config.expBias : Nat

/-- `ENC_TIE` of this instance (92_eei_decisions.md D6, OPEN). -/
opaque Config.encTie : TieRule

/-- `WMAX - 32` of this instance (92_eei_decisions.md D12, OPEN). -/
opaque Config.wmaxAbove : Option Nat

/-- `NMAX - 1` of this instance (92_eei_decisions.md D12, OPEN). -/
opaque Config.nmaxAbove : Option Nat

/-- `LENMAX` of this instance (92_eei_decisions.md D12, OPEN). -/
opaque Config.lenmax : Option Nat

/-- The parameters of this instance. -/
def Config.params : Params :=
  { expBias := Config.expBias, encTie := Config.encTie, wmaxAbove := Config.wmaxAbove,
    nmaxAbove := Config.nmaxAbove, lenmax := Config.lenmax }

end Sys2Proof
end

