-- ==== Sys2Proof/Word.lean ====
section
/-!
DEFINITION. The types of the values that cross the CORE's boundary (10_state.md rule R28): the descriptor,
Samples and upstream tokens. A raw word is a natural number (00_scope.md rule R7) whose width travels beside it; a code is
an unbounded integer (rule R9).
-/

namespace Sys2Proof

/-- The 8-bit operation descriptor `OPD`, format `D8` (30_encoding.md rule R71). -/
abbrev Descriptor := BitVec 8

/-- A Sample: an exact rational, or a pair of exact rationals (10_state.md rule R28, 92_eei_decisions.md D10). -/
inductive Sample where
  /-- A real Sample. -/
  | real (re : Rat)
  /-- A complex Sample: real part (I) and imaginary part (Q). -/
  | complex (re im : Rat)
deriving DecidableEq, Repr

/-- A token of the upstream boundary: a native integer or a text, as its characters (30_encoding.md rule R66). -/
inductive Token where
  /-- A native integer. -/
  | int (n : Int)
  /-- A text. -/
  | text (chars : List Char)
deriving DecidableEq, Repr

end Sys2Proof
end

