-- ==== Sys2Proof/Syntax.lean ====
section
/-!
DEFINITION. The operations, one constructor per row of spec/opcode_table.json (30_encoding.md rules R70, R72, R73). A
constructor's arguments are the modifier bits its row leaves free; the descriptor holds no operand (rule R71).
-/

namespace Sys2Proof

/-- The operations of the CORE with their modifiers. -/
inductive Instr where
  /-- `DEC_FIX`, rule R90. -/
  | decFix
  /-- `DEC_CFIX`, rule R92; `c` is modifier `C`. -/
  | decCfix (c : Bool)
  /-- `ENC_FIX`, rule R94. -/
  | encFix
  /-- `PACK_FIX`, rule R97; `c` is modifier `C`. -/
  | packFix (c : Bool)
  /-- `DEC_FLT`, rule R99. -/
  | decFlt
  /-- `ENC_FLT`, rule R124. -/
  | encFlt
  /-- `RND_FIX`, rule R141; `w` is modifier `W` (wrap), `h` is modifier `H`. -/
  | rndFix (w h : Bool)
  /-- `SAT_FIX`, rule R146. -/
  | satFix
  /-- `PKT_RANGES`, rule R162; `e` and `sp` are modifiers `E` and `S`. -/
  | pktRanges (e sp : Bool)
  /-- `FILT_ALL`, rule R164; `e`, `sp` and `v` are modifiers `E`, `S` and `V`. -/
  | filtAll (e sp v : Bool)
  /-- `FILT_LIST`, rule R165; `e`, `sp` and `v` are modifiers `E`, `S` and `V`. -/
  | filtList (e sp v : Bool)
  /-- `FILT_ONE`, rule R166; `e`, `sp` and `v` are modifiers `E`, `S` and `V`. -/
  | filtOne (e sp v : Bool)
  /-- `LANE_DEMUX` with `MODE = 00`, rule R191. -/
  | laneDemuxSer
  /-- `LANE_DEMUX` with `MODE = 01`, rule R192. -/
  | laneDemuxPar
  /-- `LANE_MUX` with `MODE = 00`, rule R193. -/
  | laneMuxSer
  /-- `LANE_MUX` with `MODE = 01`, rule R194. -/
  | laneMuxPar
deriving DecidableEq, Repr

/-- Why a descriptor is illegal: the three classes of 30_encoding.md rule R74. -/
inductive DecodeReject where
  /-- An `OP` value that no operation has. -/
  | unusedOp (op : Nat)
  /-- A modifier bit set that rule R72 requires to be 0. -/
  | modifierMustBeZero
  /-- A lane operation with `MODE` = `10` or `11`. -/
  | reservedMode
deriving DecidableEq, Repr

end Sys2Proof
end

