-- ==== Sys2Proof/WellFormed.lean ====
section
/-!
DEFINITION. Which descriptors are legal (30_encoding.md rules R72, R74), one check per class of illegal descriptor. A term
of Instr is well-formed by construction: its arguments are the free modifier bits of its row, each a boolean, and a bit
that must be 0 has no place in it.
-/

namespace Sys2Proof

/-- The `OP` values of the opcode map (30_encoding.md rule R73). -/
def Descriptor.usedOps : List Nat :=
  [0x01, 0x02, 0x03, 0x04, 0x05, 0x06, 0x08, 0x09, 0x0C, 0x0D, 0x0E, 0x0F, 0x10, 0x11]

/-- The bits that rule R72 requires to be 0 beside an `OP` value. -/
def Descriptor.mustBeZero : Nat → Descriptor
  | 0x01 | 0x03 | 0x05 | 0x06 | 0x09 => 0xE0
  | 0x02 | 0x04 => 0xC0
  | 0x08 | 0x10 | 0x11 => 0x80
  | 0x0C => 0x20
  | _ => 0x00

/-- The descriptor's `OP` value is one of the map's. -/
def Descriptor.opUsed (d : Descriptor) : Bool :=
  Descriptor.usedOps.contains (d &&& 0x1F).toNat

/-- No modifier bit is set that must be 0. -/
def Descriptor.modifiersClear (d : Descriptor) : Bool :=
  d &&& Descriptor.mustBeZero (d &&& 0x1F).toNat == 0

/-- A lane operation's `MODE` is `00` or `01`: its high bit, bit 6, is 0. -/
def Descriptor.modeUsed (d : Descriptor) : Bool :=
  !((d &&& 0x1E == 0x10) && (d &&& 0x40 == 0x40))

/-- The descriptor selects an operation (30_encoding.md rule R74: every other one is illegal). -/
def Descriptor.legal (d : Descriptor) : Bool :=
  d.opUsed && d.modifiersClear && d.modeUsed

end Sys2Proof
end

