-- ==== Sys2Proof/Decode.lean ====
section
/-!
DEFINITION. The decoder of the 8-bit descriptor, total, rejecting by name, and the encoder (30_encoding.md rules R71 to
R74); the opcode map of rule R73 as rows of mask and match.
-/

namespace Sys2Proof

/-- The selector field `OP`, bits 4..0 (30_encoding.md rule R71). -/
def opField (d : Descriptor) : Nat := (d &&& 0x1F).toNat

/-- Bit 5: `C`, `H`, `V` or `MODE[0]`, by operation (30_encoding.md rule R72). -/
def modBit5 (d : Descriptor) : Bool := d.getLsbD 5

/-- Bit 6: `W`, `S` or `MODE[1]`, by operation (30_encoding.md rule R72). -/
def modBit6 (d : Descriptor) : Bool := d.getLsbD 6

/-- Bit 7: `E`, or 0 (30_encoding.md rule R72). -/
def modBit7 (d : Descriptor) : Bool := d.getLsbD 7

/-- Accept `i` unless one of the listed bits, which must be 0, is set. -/
def mustBeClear (bits : List Bool) (i : Instr) : Except DecodeReject Instr :=
  if bits.any id then .error .modifierMustBeZero else .ok i

/-- A lane operation: bit 7 must be 0; `MODE` selects serial or parallel, `10` and `11` are reserved. -/
def decodeLane (d : Descriptor) (serial parallel : Instr) : Except DecodeReject Instr :=
  if modBit7 d then .error .modifierMustBeZero
  else if modBit6 d then .error .reservedMode
  else .ok (if modBit5 d then parallel else serial)

/-- The decoder (30_encoding.md rules R72 to R74). -/
def decode (d : Descriptor) : Except DecodeReject Instr :=
  match opField d with
  | 0x01 => mustBeClear [modBit7 d, modBit6 d, modBit5 d] .decFix
  | 0x02 => mustBeClear [modBit7 d, modBit6 d] (.decCfix (modBit5 d))
  | 0x03 => mustBeClear [modBit7 d, modBit6 d, modBit5 d] .encFix
  | 0x04 => mustBeClear [modBit7 d, modBit6 d] (.packFix (modBit5 d))
  | 0x05 => mustBeClear [modBit7 d, modBit6 d, modBit5 d] .decFlt
  | 0x06 => mustBeClear [modBit7 d, modBit6 d, modBit5 d] .encFlt
  | 0x08 => mustBeClear [modBit7 d] (.rndFix (modBit6 d) (modBit5 d))
  | 0x09 => mustBeClear [modBit7 d, modBit6 d, modBit5 d] .satFix
  | 0x0C => mustBeClear [modBit5 d] (.pktRanges (modBit7 d) (modBit6 d))
  | 0x0D => .ok (.filtAll (modBit7 d) (modBit6 d) (modBit5 d))
  | 0x0E => .ok (.filtList (modBit7 d) (modBit6 d) (modBit5 d))
  | 0x0F => .ok (.filtOne (modBit7 d) (modBit6 d) (modBit5 d))
  | 0x10 => decodeLane d .laneDemuxSer .laneDemuxPar
  | 0x11 => decodeLane d .laneMuxSer .laneMuxPar
  | op => .error (.unusedOp op)

/-- A descriptor from its modifier bits 7, 6, 5 and its selector (30_encoding.md rule R71). -/
def descriptorOf (b7 b6 b5 : Bool) (op : Nat) : Descriptor :=
  BitVec.ofNat 8 (128 * b7.toNat + 64 * b6.toNat + 32 * b5.toNat + op)

/-- The encoder: the descriptor pattern of 30_encoding.md rule R73 with the modifier bits filled in. -/
def encode : Instr → Descriptor
  | .decFix => descriptorOf false false false 0x01
  | .decCfix c => descriptorOf false false c 0x02
  | .encFix => descriptorOf false false false 0x03
  | .packFix c => descriptorOf false false c 0x04
  | .decFlt => descriptorOf false false false 0x05
  | .encFlt => descriptorOf false false false 0x06
  | .rndFix w h => descriptorOf false w h 0x08
  | .satFix => descriptorOf false false false 0x09
  | .pktRanges e sp => descriptorOf e sp false 0x0C
  | .filtAll e sp v => descriptorOf e sp v 0x0D
  | .filtList e sp v => descriptorOf e sp v 0x0E
  | .filtOne e sp v => descriptorOf e sp v 0x0F
  | .laneDemuxSer => descriptorOf false false false 0x10
  | .laneDemuxPar => descriptorOf false false true 0x10
  | .laneMuxSer => descriptorOf false false false 0x11
  | .laneMuxPar => descriptorOf false false true 0x11

/-- The mask and the match of an operation's row of spec/opcode_table.json (30_encoding.md rule R73; the lane operations
have one row per mode, 90_conflicts.md C8). -/
def rowOf : Instr → Descriptor × Descriptor
  | .decFix => (0xFF, 0x01)
  | .decCfix _ => (0xDF, 0x02)
  | .encFix => (0xFF, 0x03)
  | .packFix _ => (0xDF, 0x04)
  | .decFlt => (0xFF, 0x05)
  | .encFlt => (0xFF, 0x06)
  | .rndFix _ _ => (0x9F, 0x08)
  | .satFix => (0xFF, 0x09)
  | .pktRanges _ _ => (0x3F, 0x0C)
  | .filtAll _ _ _ => (0x1F, 0x0D)
  | .filtList _ _ _ => (0x1F, 0x0E)
  | .filtOne _ _ _ => (0x1F, 0x0F)
  | .laneDemuxSer => (0xFF, 0x10)
  | .laneDemuxPar => (0xFF, 0x30)
  | .laneMuxSer => (0xFF, 0x11)
  | .laneMuxPar => (0xFF, 0x31)

/-- The instruction the decoder reads from the low `nbits` bits of `w`; a descriptor has 8 bits. -/
def decodeTableWord (nbits w : Nat) : Option Instr :=
  match decode (BitVec.ofNat 8 (w % 2 ^ nbits)) with
  | .ok i => some i
  | .error _ => none

end Sys2Proof
end

