-- ==== Sys2Proof/Machine/State.lean ====
section
/-!
DEFINITION. The request and the response (10_state.md rule R30), the machine's state, its value at reset, and the reasons
a step can stop. The CORE has no register, program counter, flag, mode or memory (rules R21 to R26; 20_memory.md rule R40).
-/

namespace Sys2Proof.Machine

/-- A request: the descriptor, the configuration operands of 10_state.md rule R24 and the data operands of rule R28. An
operation reads only the operands it names; a signal counts as supplied when the descriptor says so. -/
structure Request where
  /-- `OPD`, 30_encoding.md rule R71. -/
  opd : Descriptor
  /-- `sign_bits`. -/
  signBits : Int
  /-- `int_bits`. -/
  intBits : Int
  /-- `frac_bits`. -/
  fracBits : Int
  /-- `in_width` of `RND_FIX` and `SAT_FIX`. -/
  inWidth : Int
  /-- `out_width` of `RND_FIX` and `SAT_FIX`. -/
  outWidth : Int
  /-- `sample_bits` of the lane operations. -/
  sampleBits : Int
  /-- `N`, the parallelism of the lane operations. -/
  lanes : Int
  /-- `raw` of `DEC_FIX`, `DEC_CFIX` and `DEC_FLT`. -/
  raw : Int
  /-- `value` of `RND_FIX` and `SAT_FIX`, a bit pattern. -/
  value : Int
  /-- `value` of `ENC_FIX`, a Sample. -/
  sample : Sample
  /-- `real_code` of `PACK_FIX`, `re` of `ENC_FLT`. -/
  realCode : Int
  /-- `imag_code` of `PACK_FIX`, `im` of `ENC_FLT`. -/
  imagCode : Int
  /-- `n` of `PKT_RANGES`. -/
  count : Nat
  /-- `samples` of the filters; the elements are opaque (20_memory.md rule R41). -/
  samples : List Int
  /-- The ValiditySignal, as control bits. -/
  valid : List Bool
  /-- The SOPSignal, as control bits. -/
  sop : List Bool
  /-- The EOPSignal, as control bits. -/
  eop : List Bool
  /-- `words` of `LANE_DEMUX`. -/
  words : List Int
  /-- `flat` of `LANE_MUX` in serial mode. -/
  flat : List Int
  /-- `streams` of `LANE_MUX` in parallel mode. -/
  streams : List (List Int)
deriving DecidableEq, Repr

/-- A request whose descriptor is 0 and whose operands are all 0 or empty. -/
def Request.blank : Request :=
  { opd := 0, signBits := 0, intBits := 0, fracBits := 0, inWidth := 0, outWidth := 0, sampleBits := 0, lanes := 0,
    raw := 0, value := 0, sample := .real 0, realCode := 0, imagCode := 0, count := 0, samples := [], valid := [],
    sop := [], eop := [], words := [], flat := [], streams := [] }

/-- A PacketRange: the half-open index interval `[start, stop)` (10_state.md rule R28). -/
structure PacketRange where
  start : Nat
  stop : Nat
deriving DecidableEq, Repr

/-- The result of an operation. A word, a flat stream, a set of streams or a list of words carries the width its
elements have (10_state.md rule R28: a RawWord is of a known total bit width). -/
inductive Result where
  /-- The Sample of `DEC_FIX` and `DEC_CFIX`. -/
  | value (v : Sample)
  /-- The code pair of `ENC_FIX`. -/
  | codes (realCode imagCode : Int)
  /-- The word of `PACK_FIX` and `ENC_FLT`, the pattern of `RND_FIX` and `SAT_FIX`. -/
  | word (width bits : Nat)
  /-- The complex Sample of `DEC_FLT`, whose parts are integers, and its auxiliary exponent field (rule R99). -/
  | floatValue (manI manQ : Int) (exp : Nat)
  /-- The ranges of `PKT_RANGES`. -/
  | ranges (rs : List PacketRange)
  /-- The samples of `FILT_ALL` and `FILT_ONE`. -/
  | samples (xs : List Int)
  /-- The lists of `FILT_LIST`. -/
  | packets (ps : List (List Int))
  /-- The lane values of `LANE_DEMUX.SER`. -/
  | flat (width : Nat) (lanes : List Nat)
  /-- The streams of `LANE_DEMUX.PAR`. -/
  | streams (width : Nat) (ss : List (List Nat))
  /-- The words of `LANE_MUX`. -/
  | words (width : Nat) (ws : List Nat)
deriving DecidableEq, Repr

/-- `STATUS` (60_exceptions.md rules R210, R211). -/
inductive Status where
  | ok
  | configurationError
  | lengthMismatchError
  | formatError
  | expRangeFault
deriving DecidableEq, Repr

/-- The operands a check can name. -/
inductive OperandName where
  | signBits | intBits | fracBits | totalBits
  | inWidth | outWidth
  | sampleBits | lanes | laneWord
  | realCode | imagCode
  | count | valid | sop | eop
  | flat | streams
deriving DecidableEq, Repr

/-- What a fault response carries beside its status (60_exceptions.md rule R210): no rule depends on it. -/
inductive FaultInfo where
  /-- The operand that failed the check. -/
  | operand (name : OperandName)
  /-- The exponent that did not fit, of `ExpRangeFault`. -/
  | exponent (exp : Nat)
  /-- Why the descriptor is illegal. -/
  | descriptor (why : DecodeReject)
deriving DecidableEq, Repr

/-- A response (10_state.md rule R30). -/
structure Response where
  status : Status
  /-- `RESULT`: present iff `STATUS` = `OK`. -/
  result : Option Result
  /-- The description of a failure (60_exceptions.md rule R210). -/
  info : Option FaultInfo
deriving DecidableEq, Repr

/-- A fault a check raises: its status and its description. -/
structure Raise where
  status : Status
  info : FaultInfo
deriving DecidableEq, Repr

/-- The Packetizer's transient state (10_state.md rule R27). It exists inside one request only, so no State holds it. The
spec gives `i` and `out` a value at the start of a request; `start` and `stop` (the spec's `end`) have one only from the
first iteration on (log entry 23). -/
structure Scan where
  i : Nat
  start : Nat
  stop : Nat
  out : List PacketRange
deriving DecidableEq, Repr

/-- The transient state of the one-sample-per-step frame detector (43_packetizer.md rule R168). -/
structure Detector where
  inPkt : Bool
  start : Nat
  out : List PacketRange
deriving DecidableEq, Repr

/-- The machine between steps: the operation in flight (10_state.md rule R31), and the response of the request served
last, where the caller takes it (the model's own field: no operation reads it). -/
structure State where
  inFlight : Option Request
  response : Option Response
deriving DecidableEq, Repr

/-- After reset no operation is in flight (70_reset_and_hazards.md rule R240); no response is held (DESIGN CHOICE, log
entry 4). -/
def State.reset : State :=
  { inFlight := none, response := none }

/-- Why the machine stops with a fault. The faults of the spec are no member: they are responses (rule R213). -/
inductive Fault where
  /-- Raised by the meaning of any operation called when no request is in flight, which `step` never does. Safe: the
  model stops where the spec has no operation to perform. -/
  | noRequest
deriving DecidableEq, Repr

/-- Why the machine refuses. -/
inductive Refusal where
  /-- Raised by an arm of `exec` whose instruction has no meaning yet; no arm of this model raises it. Safe. -/
  | notModelled (mnemonic : String)
deriving DecidableEq, Repr

end Sys2Proof.Machine
end

