-- ==== Sys2Proof/Machine/Flags.lean ====
section
/-!
DEFINITION. The CORE has no flag, condition code or predicate: no operation computes or reads one, and saturation sets
none (10_state.md rule R23). What a response tells beside its result is `STATUS`; this file holds its encoding.
-/

namespace Sys2Proof.Machine

/-- The 3-bit code of a status (60_exceptions.md rule R211); 5 to 7 are never produced. -/
def statusCode : Status → BitVec 3
  | .ok => 0
  | .configurationError => 1
  | .lengthMismatchError => 2
  | .formatError => 3
  | .expRangeFault => 4

end Sys2Proof.Machine
end

