-- ==== Sys2Proof/Machine/Operands.lean ====
section
/-!
DEFINITION. The notation of 00_scope.md rule R8 as functions, the typing of operands by width (10_state.md rule R29), the
rounding laws, and the checks of the configuration operands.
-/

namespace Sys2Proof.Machine

/-! ### Bit patterns (00_scope.md rules R7, R8) -/

/-- `mask(W)`: the natural number of `W` ones. -/
def mask (w : Nat) : Nat := 2 ^ w - 1

/-- `p[k]`. -/
def bit (p k : Nat) : Nat := p / 2 ^ k % 2

/-- `p[hi:lo]`, for `hi >= lo`. -/
def slice (p hi lo : Nat) : Nat := p / 2 ^ lo % 2 ^ (hi - lo + 1)

/-- `tc_W(v)`: the `W`-bit two's-complement pattern of `v`. Also how an operand of width `W` is read: `r mod 2^W`
(10_state.md rule R29). -/
def tc (w : Nat) (v : Int) : Nat := (v % ((2 ^ w : Nat) : Int)).toNat

/-- `sint_W(p)`: the signed reading of a `W`-bit pattern, for `W >= 1`. -/
def sint (w p : Nat) : Int := if bit p (w - 1) = 1 then (p : Int) - ((2 ^ w : Nat) : Int) else (p : Int)

/-- `sext_N(v)` of a `W`-bit pattern. -/
def sext (w n p : Nat) : Nat := tc n (sint w p)

/-- `bitlen(k)`: the number of bits needed to write `k`. -/
def bitlen (k : Nat) : Nat := if k = 0 then 0 else Nat.log2 k + 1

/-- `clamp(lo, hi, v)`. -/
def clamp (lo hi v : Int) : Int := if v < lo then lo else if hi < v then hi else v

/-- The real part of a Sample. -/
def sampleRe : Sample → Rat
  | .real re => re
  | .complex re _ => re

/-- The imaginary part of a Sample; a real number's is 0 (40_bitfield_codec.md rule R94). -/
def sampleIm : Sample → Rat
  | .real _ => 0
  | .complex _ im => im

/-! ### Rounding to an integer (42_requantizer.md rule R149) -/

/-- `rnd(k + 1/2)` under `ENC_TIE` (40_bitfield_codec.md rule R93). -/
def tieValue (tie : TieRule) (k : Int) : Int :=
  match tie with
  | .halfUp => k + 1
  | .halfEven => if k % 2 = 0 then k else k + 1
  | .halfAway => if 0 ≤ k then k + 1 else k

/-- `rnd(q)`: round to nearest integer (40_bitfield_codec.md rule R93). -/
def rnd (tie : TieRule) (q : Rat) : Int :=
  if q - (⌊q⌋ : Rat) < 1 / 2 then ⌊q⌋
  else if 1 / 2 < q - (⌊q⌋ : Rat) then ⌊q⌋ + 1
  else tieValue tie ⌊q⌋

/-- `hdl_round(q)`: round to nearest, ties up (41_blockfloat_encoder.md rule R122). -/
def hdlRound (q : Rat) : Int := ⌊q + 1 / 2⌋

/-! ### Checks -/

/-- A value above a maximum. The least value the spec guarantees is tried first. -/
def exceeds (m : Maximum) (x : Nat) : Bool :=
  decide (m.least < x) && m.above.any fun a => decide (m.least + a < x)

/-- `WMAX`: at least 32 (00_scope.md rule R6). -/
def wmaxOf (P : Params) : Maximum := { least := 32, above := P.wmaxAbove }

/-- `NMAX`: at least 1 (00_scope.md rule R6). -/
def nmaxOf (P : Params) : Maximum := { least := 1, above := P.nmaxAbove }

/-- `LENMAX` (00_scope.md rule R6). -/
def lenmaxOf (P : Params) : Maximum := { least := 0, above := P.lenmax }

/-- Raise a fault with this status, naming this operand, when the check fails. -/
def failIf (bad : Bool) (status : Status) (name : OperandName) : Option Raise :=
  if bad then some { status := status, info := .operand name } else none

/-- `total_bits` (10_state.md rule R24). -/
def totalBits (r : Request) : Int := r.signBits + r.intBits + r.fracBits

/-- `T` as a number of bits. -/
def formatWidth (r : Request) : Nat := (totalBits r).toNat

/-- `m = int_bits + frac_bits`, the magnitude bits. -/
def magnitudeBits (r : Request) : Nat := (r.intBits + r.fracBits).toNat

/-- The format is signed: `sign_bits = 1`. -/
def isSigned (r : Request) : Bool := decide (r.signBits = 1)

/-- `check_fixed_format(s, i, f)` (40_bitfield_codec.md rule R89); `complex` where the word holds two halves. -/
def checkFixedFormat (P : Params) (complex : Bool) (r : Request) : List (Option Raise) :=
  [ failIf (!(decide (r.signBits = 0) || decide (r.signBits = 1))) .configurationError .signBits,
    failIf (decide (r.intBits < 0)) .configurationError .intBits,
    failIf (decide (r.fracBits < 0)) .configurationError .fracBits,
    failIf (decide (totalBits r < 1)) .configurationError .totalBits,
    failIf (exceeds (wmaxOf P) (if complex then 2 * formatWidth r else formatWidth r)) .configurationError .totalBits ]

/-- `min_val` of the code range of a format with `m` magnitude bits (40_bitfield_codec.md rule R95). -/
def codeLo (signed : Bool) (m : Nat) : Int := if signed then -((2 ^ m : Nat) : Int) else 0

/-- `max_val` of the code range (40_bitfield_codec.md rule R95). -/
def codeHi (m : Nat) : Int := ((2 ^ m : Nat) : Int) - 1

/-- A code outside the code range of the request's format is a `ConfigurationError` (40_bitfield_codec.md rule R97,
41_blockfloat_encoder.md rule R124). -/
def checkCode (r : Request) (code : Int) (name : OperandName) : Option Raise :=
  failIf (decide (code < codeLo (isSigned r) (magnitudeBits r)) || decide (codeHi (magnitudeBits r) < code))
    .configurationError name

/-- The width check of the requantizer (42_requantizer.md rule R140). -/
def checkWidths (P : Params) (r : Request) : List (Option Raise) :=
  [ failIf (decide (r.inWidth < 1)) .configurationError .inWidth,
    failIf (decide (r.outWidth < 1)) .configurationError .outWidth,
    failIf (exceeds (wmaxOf P) r.inWidth.toNat) .configurationError .inWidth,
    failIf (exceeds (wmaxOf P) r.outWidth.toNat) .configurationError .outWidth ]

/-- `check_lane_layout(N, sample_bits, MODE)`; the `MODE` part is the decoder's (44_lane_mux.md rule R190). -/
def checkLaneLayout (P : Params) (r : Request) : List (Option Raise) :=
  [ failIf (decide (r.lanes < 1)) .formatError .lanes,
    failIf (decide (r.sampleBits < 1)) .configurationError .sampleBits,
    failIf (exceeds (nmaxOf P) r.lanes.toNat) .configurationError .lanes,
    failIf (exceeds (wmaxOf P) (r.lanes.toNat * r.sampleBits.toNat)) .configurationError .laneWord ]

/-- A signal operand: supplied iff its descriptor bit is 1 (30_encoding.md rule R72). -/
def supplied (present : Bool) (signal : List Bool) : Option (List Bool) :=
  if present then some signal else none

/-- A supplied control array must have the length of the data it gates (43_packetizer.md rule R161). -/
def checkLength (n : Nat) (signal : Option (List Bool)) (name : OperandName) : Option Raise :=
  match signal with
  | none => none
  | some bits => failIf (decide (bits.length ≠ n)) .lengthMismatchError name

/-- The checks shared by the Packetizer operations (43_packetizer.md rule R161, order 60_exceptions.md rule R214). -/
def checkPackets (P : Params) (n : Nat) (valid sop eop : Option (List Bool)) : List (Option Raise) :=
  [ failIf (exceeds (lenmaxOf P) n) .configurationError .count,
    checkLength n valid .valid,
    checkLength n sop .sop,
    checkLength n eop .eop ]

end Sys2Proof.Machine
end

