-- ==== Sys2Proof/Machine/Ops.lean ====
section
/-!
DEFINITION. The shared operations of every meaning: answering a request with a result, and ending it with a fault (what
stands for taking an exception, 60_exceptions.md rule R213). There is no return from a fault (rule R215): the next request
is served as any other. The CORE has no memory and no register to operate on.
-/

namespace Sys2Proof.Machine

/-- The response with status `OK` and this result. -/
def okResponse (x : Result) : Response :=
  { status := .ok, result := some x, info := none }

/-- `raise`: the response with the status of the fault and no result (60_exceptions.md rule R213). -/
def faultResponse (x : Raise) : Response :=
  { status := x.status, result := none, info := some x.info }

/-- The first failing check of a list (60_exceptions.md rule R214). -/
def firstFailure : List (Option Raise) → Option Raise
  | [] => none
  | some x :: _ => some x
  | none :: rest => firstFailure rest

/-- Answer a request: the first failing check's fault, or the whole result. -/
def answer (checks : List (Option Raise)) (x : Result) : Response :=
  match firstFailure checks with
  | some e => faultResponse e
  | none => okResponse x

/-- The state after a request: nothing is in flight and the response is handed out. -/
def served (x : Response) (s : State) : State := { s with inFlight := none, response := some x }

/-- The step of an operation: the request in flight is served whole, in one step, and its response is handed out
(10_state.md rules R20, R30). -/
def serve (f : Params → Request → Response) (s : State) : Host.Outcome State Fault Refusal :=
  match s.inFlight with
  | none => .fault .noRequest
  | some r => .next (served (f Config.params r) s)

/-- A request whose descriptor is illegal raises `FormatError` and nothing else happens (30_encoding.md rule R74). -/
def illegalDescriptor (why : DecodeReject) : Response :=
  faultResponse { status := .formatError, info := .descriptor why }

end Sys2Proof.Machine
end

