-- ==== Sys2Proof/Machine/Codec.lean ====
section
/-!
DEFINITION. The BitfieldCodec operations (40_bitfield_codec.md): `DEC_FIX`, `DEC_CFIX`, `ENC_FIX`, `PACK_FIX`, `DEC_FLT`.
-/

namespace Sys2Proof.Machine

/-- The code that a word of `T` bits stands for: two's complement when the format is signed (rule R90). -/
def decodeCode (signed : Bool) (T : Nat) (raw : Int) : Int :=
  if signed && decide (bit (tc T raw) (T - 1) = 1) then (tc T raw : Int) - ((2 ^ T : Nat) : Int) else (tc T raw : Int)

/-- The value of a word of `T` bits with `f` fraction bits (rule R90). -/
def decodeFixed (signed : Bool) (T f : Nat) (raw : Int) : Rat :=
  (decodeCode signed T raw : Rat) / ((2 ^ f : Nat) : Rat)

/-- `DEC_FIX` (rule R90). -/
def serveDecFix (P : Params) (r : Request) : Response :=
  answer (checkFixedFormat P false r)
    (.value (.real (decodeFixed (isSigned r) (formatWidth r) r.fracBits.toNat r.raw)))

/-- The complex Sample of a word of `2*T` bits: I in the low half, Q above it (rule R92). -/
def decodeComplex (signed : Bool) (T f : Nat) (raw : Int) : Sample :=
  .complex (decodeFixed signed T f (slice (tc (2 * T) raw) (T - 1) 0))
    (decodeFixed signed T f (slice (tc (2 * T) raw) (2 * T - 1) T))

/-- `DEC_CFIX[.C]` (rule R92). -/
def serveDecCfix (c : Bool) (P : Params) (r : Request) : Response :=
  answer (checkFixedFormat P c r)
    (.value (if c then decodeComplex (isSigned r) (formatWidth r) r.fracBits.toNat r.raw
      else .real (decodeFixed (isSigned r) (formatWidth r) r.fracBits.toNat r.raw)))

/-- One part of a Sample to a code: scale, round, saturate, in this order (rule R94). -/
def encodeFixed (tie : TieRule) (signed : Bool) (m f : Nat) (q : Rat) : Int :=
  clamp (codeLo signed m) (codeHi m) (rnd tie (q * ((2 ^ f : Nat) : Rat)))

/-- `ENC_FIX` (rule R94). -/
def serveEncFix (P : Params) (r : Request) : Response :=
  answer (checkFixedFormat P false r)
    (.codes (encodeFixed P.encTie (isSigned r) (magnitudeBits r) r.fracBits.toNat (sampleRe r.sample))
      (encodeFixed P.encTie (isSigned r) (magnitudeBits r) r.fracBits.toNat (sampleIm r.sample)))

/-- The complex word `{Q, I}` of two codes, `2*T` bits (rule R97, 30_encoding.md rule R61). -/
def packComplex (T : Nat) (re im : Int) : Nat := tc T im <<< T ||| tc T re

/-- `PACK_FIX[.C]` (rule R97); without `C` the imaginary code is ignored. -/
def servePackFix (c : Bool) (P : Params) (r : Request) : Response :=
  answer (checkFixedFormat P c r ++
      [ checkCode r r.realCode .realCode,
        if c then checkCode r r.imagCode .imagCode else none ])
    (if c then .word (2 * formatWidth r) (packComplex (formatWidth r) r.realCode r.imagCode)
      else .word (formatWidth r) (tc (formatWidth r) r.realCode))

/-- `EXP_BITS` (00_scope.md rule R6). -/
def expBits : Nat := 6

/-- `MAN_BITS` (00_scope.md rule R6). -/
def manBits : Nat := 13

/-- `FLT_BITS` = `EXP_BITS + 2*MAN_BITS` (00_scope.md rule R6). -/
def fltBits : Nat := expBits + 2 * manBits

/-- `DEC_FLT` (rule R99): the fields of 30_encoding.md rule R63. The exponent is handed out beside the Sample and not
applied. There is no check: the operation raises no fault. -/
def serveDecFlt (_P : Params) (r : Request) : Response :=
  answer []
    (.floatValue (sint manBits (tc fltBits r.raw &&& mask manBits))
      (sint manBits ((tc fltBits r.raw >>> manBits) &&& mask manBits))
      ((tc fltBits r.raw >>> (2 * manBits)) &&& mask expBits))

/-- The meaning of `DEC_FIX`. -/
def execDecFix (s : State) : Host.Outcome State Fault Refusal := serve serveDecFix s

/-- The meaning of `DEC_CFIX[.C]`. -/
def execDecCfix (c : Bool) (s : State) : Host.Outcome State Fault Refusal := serve (serveDecCfix c) s

/-- The meaning of `ENC_FIX`. -/
def execEncFix (s : State) : Host.Outcome State Fault Refusal := serve serveEncFix s

/-- The meaning of `PACK_FIX[.C]`. -/
def execPackFix (c : Bool) (s : State) : Host.Outcome State Fault Refusal := serve (servePackFix c) s

/-- The meaning of `DEC_FLT`. -/
def execDecFlt (s : State) : Host.Outcome State Fault Refusal := serve serveDecFlt s

end Sys2Proof.Machine
end

