-- ==== Sys2Proof/Machine/BlockFloat.lean ====
section
/-!
DEFINITION. The BlockFloatEncoder (41_blockfloat_encoder.md): `exp_calc`, the shared shift and `ENC_FLT`.
-/

namespace Sys2Proof.Machine

/-- `ceil(log2(n))`, exact, for `n >= 1`. -/
def ceilLog2 (n : Nat) : Nat := if 2 ^ Nat.log2 n = n then Nat.log2 n else Nat.log2 n + 1

/-- `n` is a power of two, for `n >= 1`. -/
def isPowerOfTwo (n : Nat) : Bool := decide (2 ^ Nat.log2 n = n)

/-- `exp_calc(x)`, the candidate exponent of one part: bumped by one at a positive power of two; 0 at 0 (rule R121,
92_eei_decisions.md D9). -/
def expCalc (x : Int) : Nat :=
  if x = 0 then 0
  else if 0 < x ∧ isPowerOfTwo x.natAbs = true then ceilLog2 x.natAbs + 1
  else ceilLog2 x.natAbs

/-- `exp_shared`: `max(exp_I, exp_Q) - MAN_BITS + 1`, clamped to at least 0 (rule R123). -/
def expShared (re im : Int) : Nat :=
  (max ((max (expCalc re) (expCalc im) : Nat) - (manBits : Int) + 1) 0).toNat

/-- One part's mantissa: shifted right with `hdl_round`, then saturated at the top (rule R124). -/
def mantissa (sh : Nat) (x : Int) : Int :=
  if ((2 ^ (manBits - 1) : Nat) : Int) - 1 < hdlRound ((x : Rat) / ((2 ^ sh : Nat) : Rat))
  then ((2 ^ (manBits - 1) : Nat) : Int) - 1
  else hdlRound ((x : Rat) / ((2 ^ sh : Nat) : Rat))

/-- The packed exponent: 0 for the canonical zero, else the shared shift plus `EXP_BIAS` (rule R124). -/
def packedExp (bias : Nat) (re im : Int) : Nat :=
  if mantissa (expShared re im) re = 0 ∧ mantissa (expShared re im) im = 0 then 0
  else expShared re im + bias

/-- The exponent must fit `EXP_BITS` bits (rule R124, 92_eei_decisions.md D8). -/
def checkExpRange (exp : Nat) : Option Raise :=
  if 2 ^ expBits - 1 < exp then some { status := .expRangeFault, info := .exponent exp } else none

/-- The block-float word of its fields (rule R124, 30_encoding.md rule R62). -/
def floatWord (exp : Nat) (manI manQ : Int) : Nat :=
  (exp <<< (2 * manBits)) ||| (tc manBits manQ <<< manBits) ||| tc manBits manI

/-- `ENC_FLT` (rule R124). -/
def serveEncFlt (P : Params) (r : Request) : Response :=
  answer (checkFixedFormat P false r ++
      [ checkCode r r.realCode .realCode,
        checkCode r r.imagCode .imagCode,
        checkExpRange (packedExp P.expBias r.realCode r.imagCode) ])
    (.word fltBits
      (floatWord (packedExp P.expBias r.realCode r.imagCode)
        (mantissa (expShared r.realCode r.imagCode) r.realCode)
        (mantissa (expShared r.realCode r.imagCode) r.imagCode)))

/-- The meaning of `ENC_FLT`. -/
def execEncFlt (s : State) : Host.Outcome State Fault Refusal := serve serveEncFlt s

end Sys2Proof.Machine
end

