-- ==== Sys2Proof/Machine/Lanes.lean ====
section
/-!
DEFINITION. The LaneMux/Demux (44_lane_mux.md): `LANE_DEMUX` and `LANE_MUX`, serial and parallel.
-/

namespace Sys2Proof.Machine

/-- Lane `i` of a word, by shift and mask (rule R191, 30_encoding.md rule R64). -/
def laneOf (sb word i : Nat) : Nat := (word >>> (i * sb)) &&& mask sb

/-- The lanes of one word in ascending lane order; the word is read modulo `2^(N*sample_bits)` (rule R191). -/
def lanesOf (n sb : Nat) (word : Int) : List Nat := (List.range n).map (laneOf sb (tc (n * sb) word))

/-- `LANE_DEMUX.SER`: one word's lanes before the next word's (rule R191). -/
def demuxSerial (n sb : Nat) (words : List Int) : List Nat := words.flatMap (lanesOf n sb)

/-- `LANE_DEMUX.PAR`: one stream per lane index, gathering across all words in order (rule R192). -/
def demuxParallel (n sb : Nat) (words : List Int) : List (List Nat) :=
  (List.range n).map fun i => words.map fun word => laneOf sb (tc (n * sb) word) i

/-- The word that holds lane values `lane 0 .. lane (N-1)`, each read modulo `2^sample_bits` (rule R193). -/
def packLanes (n sb : Nat) (lane : Nat → Int) : Nat :=
  (List.range n).foldl (fun word i => word ||| (tc sb (lane i) <<< (i * sb))) 0

/-- `LANE_MUX.SER`: element `w*N + i` is lane `i` of word `w` (rule R193). -/
def muxSerial (n sb : Nat) (flat : List Int) : List Nat :=
  (List.range (flat.length / n)).map fun w => packLanes n sb fun i => flat.getD (w * n + i) 0

/-- The length `L` of the streams: the first one's (rule R194). -/
def streamLength (streams : List (List Int)) : Nat := (streams.headD []).length

/-- `LANE_MUX.PAR`: element `w` of stream `i` is lane `i` of word `w` (rule R194). -/
def muxParallel (n sb : Nat) (streams : List (List Int)) : List Nat :=
  (List.range (streamLength streams)).map fun w => packLanes n sb fun i => (streams.getD i []).getD w 0

/-- A flat stream must hold a whole number of words (rule R193). -/
def checkFlat (r : Request) : Option Raise :=
  failIf (decide (r.flat.length % r.lanes.toNat ≠ 0)) .lengthMismatchError .flat

/-- There must be `N` streams (rule R194). -/
def checkStreamCount (r : Request) : Option Raise :=
  failIf (decide (r.streams.length ≠ r.lanes.toNat)) .lengthMismatchError .streams

/-- The streams must have equal lengths (rule R194). -/
def checkStreamLengths (r : Request) : Option Raise :=
  failIf (r.streams.any fun xs => decide (xs.length ≠ streamLength r.streams)) .lengthMismatchError .streams

/-- `LANE_DEMUX.SER` (rule R191). -/
def serveLaneDemuxSer (P : Params) (r : Request) : Response :=
  answer (checkLaneLayout P r)
    (.flat r.sampleBits.toNat (demuxSerial r.lanes.toNat r.sampleBits.toNat r.words))

/-- `LANE_DEMUX.PAR` (rule R192). -/
def serveLaneDemuxPar (P : Params) (r : Request) : Response :=
  answer (checkLaneLayout P r)
    (.streams r.sampleBits.toNat (demuxParallel r.lanes.toNat r.sampleBits.toNat r.words))

/-- `LANE_MUX.SER` (rule R193). -/
def serveLaneMuxSer (P : Params) (r : Request) : Response :=
  answer (checkLaneLayout P r ++ [checkFlat r])
    (.words (r.lanes.toNat * r.sampleBits.toNat) (muxSerial r.lanes.toNat r.sampleBits.toNat r.flat))

/-- `LANE_MUX.PAR` (rule R194). -/
def serveLaneMuxPar (P : Params) (r : Request) : Response :=
  answer (checkLaneLayout P r ++ [checkStreamCount r, checkStreamLengths r])
    (.words (r.lanes.toNat * r.sampleBits.toNat) (muxParallel r.lanes.toNat r.sampleBits.toNat r.streams))

/-- The meaning of `LANE_DEMUX.SER`. -/
def execLaneDemuxSer (s : State) : Host.Outcome State Fault Refusal := serve serveLaneDemuxSer s

/-- The meaning of `LANE_DEMUX.PAR`. -/
def execLaneDemuxPar (s : State) : Host.Outcome State Fault Refusal := serve serveLaneDemuxPar s

/-- The meaning of `LANE_MUX.SER`. -/
def execLaneMuxSer (s : State) : Host.Outcome State Fault Refusal := serve serveLaneMuxSer s

/-- The meaning of `LANE_MUX.PAR`. -/
def execLaneMuxPar (s : State) : Host.Outcome State Fault Refusal := serve serveLaneMuxPar s

end Sys2Proof.Machine
end

