-- ==== Sys2Proof/Machine/Packetizer.lean ====
section
/-!
DEFINITION. The Packetizer (43_packetizer.md): the range computation, its streaming form, and the filters. A signal that
is not supplied is `none`: it is neither checked nor read.
-/

namespace Sys2Proof.Machine

/-- `sig[k]`; no rule reads outside the sequence (20_memory.md rule R40). -/
def assertedAt (sig : List Bool) (k : Nat) : Bool := sig.getD k false

/-- The least asserted index among the `fuel` indices from `k` on. -/
def scanFrom (sig : List Bool) : Nat → Nat → Option Nat
  | 0, _ => none
  | fuel + 1, k => if assertedAt sig k then some k else scanFrom sig fuel (k + 1)

/-- The forward scan: the least `k` with `start <= k < n` and `sig[k]` asserted (20_memory.md rule R53). -/
def findFrom (sig : List Bool) (n start : Nat) : Option Nat := scanFrom sig (n - start) start

/-- Step 1 of rule R162: the start of the next packet, `none` where there is no further packet. -/
def packetStart (sop : Option (List Bool)) (n i : Nat) : Option Nat :=
  match sop with
  | none => some i
  | some sig => findFrom sig n i

/-- Step 2 of rule R162: `n` by default, one past the first EOP from `start` on where there is one. -/
def packetStop (eop : Option (List Bool)) (n start : Nat) : Nat :=
  match eop with
  | none => n
  | some sig =>
    match findFrom sig n start with
    | none => n
    | some k => k + 1

/-- Step 3 of rule R162: force `end = start + 1` when `end <= start`. -/
def guardStop (start stop : Nat) : Nat := if stop ≤ start then start + 1 else stop

/-- Steps 2 to 4 of rule R162 for a packet that starts at `start`: its range is emitted and `i` is set to its end. -/
def emitPacket (eop : Option (List Bool)) (n start : Nat) (st : Scan) : Scan :=
  { i := guardStop start (packetStop eop n start),
    start := start,
    stop := guardStop start (packetStop eop n start),
    out := st.out ++ [{ start := start, stop := guardStop start (packetStop eop n start) }] }

/-- The loop of rule R162. `i` grows by at least 1 in an iteration, so `n` iterations are enough. -/
def packetLoop (sop eop : Option (List Bool)) (n : Nat) : Nat → Scan → Scan
  | 0, st => st
  | fuel + 1, st =>
    if st.i < n then
      match packetStart sop n st.i with
      | none => st
      | some start =>
        if sop.isNone && eop.isNone then emitPacket eop n start st
        else packetLoop sop eop n fuel (emitPacket eop n start st)
    else st

/-- The ranges of rule R162: the loop from `i = 0`, `out = []` (10_state.md rules R27, R31). DESIGN CHOICE (log entry 23):
`start` and `stop` are 0 before the first iteration, where the spec gives them no value; every iteration sets them before
they are read. -/
def packetRanges (n : Nat) (sop eop : Option (List Bool)) : List PacketRange :=
  (packetLoop sop eop n n { i := 0, start := 0, stop := 0, out := [] }).out

/-- One index of the streaming frame detector (rule R168): the SOP test, then the EOP test on the same index. -/
def detectorStep (sop eop : Option (List Bool)) (d : Detector) (j : Nat) : Detector :=
  let opened : Detector :=
    if !d.inPkt && (sop.any fun sig => assertedAt sig j) then { d with inPkt := true, start := j } else d
  if opened.inPkt && (eop.any fun sig => assertedAt sig j) then
    { inPkt := sop.isNone, start := j + 1, out := opened.out ++ [{ start := opened.start, stop := j + 1 }] }
  else opened

/-- The ranges by the streaming frame detector (rule R168). -/
def streamRanges (n : Nat) (sop eop : Option (List Bool)) : List PacketRange :=
  let d := (List.range n).foldl (detectorStep sop eop) { inPkt := sop.isNone, start := 0, out := [] }
  if d.inPkt && decide (d.start < n) then d.out ++ [{ start := d.start, stop := n }] else d.out

/-- `PKT_RANGES[.S][.E]` (rule R162). -/
def servePktRanges (e sp : Bool) (P : Params) (r : Request) : Response :=
  answer (checkPackets P r.count none (supplied sp r.sop) (supplied e r.eop))
    (.ranges (packetRanges r.count (supplied sp r.sop) (supplied e r.eop)))

/-- The sample at index `k` is kept: no validity signal, or its validity bit is set (rule R164). -/
def keeps (valid : Option (List Bool)) (k : Nat) : Bool :=
  match valid with
  | none => true
  | some sig => assertedAt sig k

/-- The kept samples of one range, in order (rule R164). The elements are not inspected (20_memory.md rule R41). -/
def rangeSamples {α : Type} (xs : List α) (valid : Option (List Bool)) (p : PacketRange) : List α :=
  ((List.range' p.start (p.stop - p.start)).filter (keeps valid)).filterMap fun k => xs[k]?

/-- `FILT_ALL` on the ranges (rule R164). -/
def filterAll {α : Type} (xs : List α) (valid : Option (List Bool)) (rs : List PacketRange) : List α :=
  rs.flatMap (rangeSamples xs valid)

/-- `FILT_LIST` on the ranges: a list for each range that does not filter to empty (rule R165). -/
def filterList {α : Type} (xs : List α) (valid : Option (List Bool)) (rs : List PacketRange) : List (List α) :=
  (rs.map (rangeSamples xs valid)).filter fun sub => !sub.isEmpty

/-- `FILT_ONE` on the ranges: the first range only (rule R166). -/
def filterOne {α : Type} (xs : List α) (valid : Option (List Bool)) (rs : List PacketRange) : List α :=
  match rs with
  | [] => []
  | p :: _ => rangeSamples xs valid p

/-- The ranges of a filter request: `n = len(samples)` (rules R164 to R166). -/
def filterRanges (e sp : Bool) (r : Request) : List PacketRange :=
  packetRanges r.samples.length (supplied sp r.sop) (supplied e r.eop)

/-- The checks of a filter request (rule R161). -/
def checkFilter (e sp v : Bool) (P : Params) (r : Request) : List (Option Raise) :=
  checkPackets P r.samples.length (supplied v r.valid) (supplied sp r.sop) (supplied e r.eop)

/-- `FILT_ALL[.V][.S][.E]` (rule R164). -/
def serveFiltAll (e sp v : Bool) (P : Params) (r : Request) : Response :=
  answer (checkFilter e sp v P r) (.samples (filterAll r.samples (supplied v r.valid) (filterRanges e sp r)))

/-- `FILT_LIST[.V][.S][.E]` (rule R165). -/
def serveFiltList (e sp v : Bool) (P : Params) (r : Request) : Response :=
  answer (checkFilter e sp v P r) (.packets (filterList r.samples (supplied v r.valid) (filterRanges e sp r)))

/-- `FILT_ONE[.V][.S][.E]` (rule R166). -/
def serveFiltOne (e sp v : Bool) (P : Params) (r : Request) : Response :=
  answer (checkFilter e sp v P r) (.samples (filterOne r.samples (supplied v r.valid) (filterRanges e sp r)))

/-- The meaning of `PKT_RANGES[.S][.E]`. -/
def execPktRanges (e sp : Bool) (s : State) : Host.Outcome State Fault Refusal := serve (servePktRanges e sp) s

/-- The meaning of `FILT_ALL[.V][.S][.E]`. -/
def execFiltAll (e sp v : Bool) (s : State) : Host.Outcome State Fault Refusal := serve (serveFiltAll e sp v) s

/-- The meaning of `FILT_LIST[.V][.S][.E]`. -/
def execFiltList (e sp v : Bool) (s : State) : Host.Outcome State Fault Refusal := serve (serveFiltList e sp v) s

/-- The meaning of `FILT_ONE[.V][.S][.E]`. -/
def execFiltOne (e sp v : Bool) (s : State) : Host.Outcome State Fault Refusal := serve (serveFiltOne e sp v) s

end Sys2Proof.Machine
end

