-- ==== Sys2Proof/Machine/Requantizer.lean ====
section
/-!
DEFINITION. The Requantizer (42_requantizer.md): `RND_FIX` and `SAT_FIX`.
-/

namespace Sys2Proof.Machine

/-- The increment of an `out_width`-bit pattern, which wraps (42_requantizer.md rule R149). -/
def increment (outW v : Nat) : Nat := (v + 1) % 2 ^ outW

/-- All magnitude bits of the candidate `v` are 1; with one bit there are none, so this holds (rule R141). -/
def atMax (outW v : Nat) : Bool :=
  if outW = 1 then true else decide (slice v (outW - 2) 0 = mask (outW - 1))

/-- Some bit of `p` below the round bit is set (rule R141). -/
def sticky (drop p : Nat) : Bool :=
  if 2 ≤ drop then decide (slice p (drop - 2) 0 ≠ 0) else false

/-- The narrowing branch of `RND_FIX` on a pattern `p` of `inW` bits (rule R141). -/
def roundNarrow (roundNegativeUp saturate : Bool) (inW outW p : Nat) : Nat :=
  if bit p (inW - outW - 1) = 0 then p >>> (inW - outW)
  else if bit p (inW - 1) = 0 then
    if atMax outW (p >>> (inW - outW)) && saturate then p >>> (inW - outW)
    else increment outW (p >>> (inW - outW))
  else if !roundNegativeUp && !sticky (inW - outW) p then p >>> (inW - outW)
  else increment outW (p >>> (inW - outW))

/-- `RND_FIX` on a pattern `p` of `inW` bits (rule R141). -/
def roundFixed (roundNegativeUp saturate : Bool) (inW outW p : Nat) : Nat :=
  if inW ≤ outW then sext inW outW p else roundNarrow roundNegativeUp saturate inW outW p

/-- `RND_FIX[.H][.W]` (rule R141): `H` clears `round_negative_up`, `W` clears `saturate`. -/
def serveRndFix (w h : Bool) (P : Params) (r : Request) : Response :=
  answer (checkWidths P r)
    (.word r.outWidth.toNat (roundFixed (!h) (!w) r.inWidth.toNat r.outWidth.toNat (tc r.inWidth.toNat r.value)))

/-- The narrowing branch of `SAT_FIX` on a pattern `p` of `inW` bits (rule R146). -/
def saturateNarrow (inW outW p : Nat) : Nat :=
  if (bit p (inW - 1) = 0 ∧ slice p (inW - 2) (outW - 1) = 0) ∨
      (bit p (inW - 1) = 1 ∧ slice p (inW - 2) (outW - 1) = mask (inW - outW)) then
    slice p (outW - 1) 0
  else if bit p (inW - 1) = 0 then 2 ^ (outW - 1) - 1
  else 2 ^ (outW - 1)

/-- `SAT_FIX` on a pattern `p` of `inW` bits (rule R146). -/
def saturateFixed (inW outW p : Nat) : Nat :=
  if inW ≤ outW then sext inW outW p else saturateNarrow inW outW p

/-- `SAT_FIX` (rule R146). -/
def serveSatFix (P : Params) (r : Request) : Response :=
  answer (checkWidths P r)
    (.word r.outWidth.toNat (saturateFixed r.inWidth.toNat r.outWidth.toNat (tc r.inWidth.toNat r.value)))

/-- The meaning of `RND_FIX[.H][.W]`. -/
def execRndFix (w h : Bool) (s : State) : Host.Outcome State Fault Refusal := serve (serveRndFix w h) s

/-- The meaning of `SAT_FIX`. -/
def execSatFix (s : State) : Host.Outcome State Fault Refusal := serve serveSatFix s

end Sys2Proof.Machine
end

