-- ==== Sys2Proof/Machine/Dispatch.lean ====
section
/-!
DEFINITION. One arm per operation (30_encoding.md rule R70): each calls its meaning.
-/

namespace Sys2Proof.Machine

def exec (i : Instr) (s : State) : Host.Outcome State Fault Refusal :=
  match i with
  | .decFix => Sys2Proof.Machine.execDecFix s
  | .decCfix c => Sys2Proof.Machine.execDecCfix c s
  | .encFix => Sys2Proof.Machine.execEncFix s
  | .packFix c => Sys2Proof.Machine.execPackFix c s
  | .decFlt => Sys2Proof.Machine.execDecFlt s
  | .encFlt => Sys2Proof.Machine.execEncFlt s
  | .rndFix w h => Sys2Proof.Machine.execRndFix w h s
  | .satFix => Sys2Proof.Machine.execSatFix s
  | .pktRanges e sp => Sys2Proof.Machine.execPktRanges e sp s
  | .filtAll e sp v => Sys2Proof.Machine.execFiltAll e sp v s
  | .filtList e sp v => Sys2Proof.Machine.execFiltList e sp v s
  | .filtOne e sp v => Sys2Proof.Machine.execFiltOne e sp v s
  | .laneDemuxSer => Sys2Proof.Machine.execLaneDemuxSer s
  | .laneDemuxPar => Sys2Proof.Machine.execLaneDemuxPar s
  | .laneMuxSer => Sys2Proof.Machine.execLaneMuxSer s
  | .laneMuxPar => Sys2Proof.Machine.execLaneMuxPar s

end Sys2Proof.Machine
end

