-- ==== Sys2Proof/Machine/Events.lean ====
section
/-!
DEFINITION. What the host may do to the machine (70_reset_and_hazards.md rules R240, R250), and reading the descriptor of
the request in flight (20_memory.md rule R51).
-/

namespace Sys2Proof.Machine

/-- The caller presents a request. While one is in flight there is nothing it may do with the machine (rule R250), so
that case has no outcome. -/
def present (r : Request) (s : State) : Option State :=
  match s.inFlight with
  | none => some { s with inFlight := some r }
  | some _ => none

/-- The reset event: a request in flight is abandoned with no response (rule R240). -/
def assertReset (_s : State) : State := State.reset

/-- The descriptor of the request in flight, read once per request (20_memory.md rule R51). -/
def descriptorInFlight (s : State) : Option Descriptor := s.inFlight.map fun r => r.opd

/-- A request with this descriptor is in flight: the operands are those of the request that was, else all blank. -/
def putDescriptor (d : Descriptor) (s : State) : State :=
  { s with inFlight := some { s.inFlight.getD Request.blank with opd := d } }

end Sys2Proof.Machine
end

