-- ==== Sys2Proof/Machine/Step.lean ====
section
/-!
DEFINITION. One step: the request in flight, if there is one, is decoded and served whole (10_state.md rules R20, R30;
70_reset_and_hazards.md rule R249).
-/

namespace Sys2Proof.Machine

/-- One step. An illegal descriptor is answered with `FormatError` (30_encoding.md rule R74); with no request in flight
nothing happens (log entry 2). -/
def step (s : State) : Host.Outcome State Fault Refusal :=
  match descriptorInFlight s with
  | none => .next s
  | some d =>
    match decode d with
    | .error why => serve (fun _ _ => illegalDescriptor why) s
    | .ok i => exec i s

/-- The state in which a request with the descriptor `w` of `nbits` bits is in flight. The CORE fetches nothing
(20_memory.md rule R51): this stands for the caller presenting that request (log entry 1). -/
def State.withFetchWord (s : State) (nbits w : Nat) : State :=
  putDescriptor (BitVec.ofNat 8 (w % 2 ^ nbits)) s

end Sys2Proof.Machine
end

