-- ==== Sys2Proof/Machine/Pipeline.lean ====
section
/-!
DEFINITION. Compositions that the caller makes of several requests: the two data-flow directions (00_scope.md rule R5,
30_encoding.md rule R77) and the array form of `encode_float` (41_blockfloat_encoder.md rule R120). The CORE has no
operation that performs one; `step` uses nothing of this file. How the caller strings the requests together is log entry
20.
-/

namespace Sys2Proof.Machine

/-! ### The caller's choices -/

/-- Which filter takes the kept samples. -/
inductive PacketMode where
  /-- `FILT_ALL`: one sequence over all packets. -/
  | all
  /-- `FILT_LIST`: one sequence for each packet that is not empty. -/
  | list
  /-- `FILT_ONE`: the first packet. -/
  | one
deriving DecidableEq, Repr

/-- `MODE` of the lane operations (44_lane_mux.md rule R190). -/
inductive LaneMode where
  | serial
  | parallel
deriving DecidableEq, Repr

/-- What stands on the lane side: one flat stream in serial mode, one stream per lane index in parallel mode. -/
inductive Channels (α : Type) where
  | serial (flat : List α)
  | parallel (streams : List (List α))
deriving DecidableEq, Repr

/-- The word that a lane holds: fixed-point (complex with modifier `C`) or block-float (30_encoding.md rules R60 to
R62). -/
inductive WordForm where
  | fixed (c : Bool)
  | float
deriving DecidableEq, Repr

/-- One request to the Requantizer. -/
inductive Requantize where
  | rndFix (w h : Bool) (inWidth outWidth : Int)
  | satFix (inWidth outWidth : Int)
deriving DecidableEq, Repr

/-! ### Chaining requests -/

/-- The result of a response, or the faulted response itself. -/
def resultOf (x : Response) : Except Response Result :=
  match x.result with
  | some y => .ok y
  | none => .error x

/-- Go on with the result of an earlier request, or end with its fault. -/
def andThen {α β : Type} (x : Except Response α) (f : α → Except Response β) : Except Response β :=
  match x with
  | .ok y => f y
  | .error e => .error e

/-- Do the same for each element, in order; the first fault makes the whole fail (60_exceptions.md rule R215). -/
def forEach {α β : Type} (f : α → Except Response β) : List α → Except Response (List β)
  | [] => .ok []
  | x :: xs => andThen (f x) fun y => andThen (forEach f xs) fun ys => .ok (y :: ys)

/-- Do the same for each element of each stream. -/
def forEachLane {α β : Type} (f : α → Except Response β) : Channels α → Except Response (Channels β)
  | .serial flat => andThen (forEach f flat) fun ys => .ok (.serial ys)
  | .parallel streams => andThen (forEach (forEach f) streams) fun ys => .ok (.parallel ys)

/-- The packets of a filter's result. -/
def packetsOf : Result → List (List Int)
  | .samples xs => [xs]
  | .packets ps => ps
  | _ => []

/-- The lane values of a demultiplexer's result. -/
def channelsOf : Result → Channels Nat
  | .flat _ lanes => .serial lanes
  | .streams _ ss => .parallel ss
  | _ => .serial []

/-- The word of a result. -/
def wordOf : Result → Nat
  | .word _ bits => bits
  | _ => 0

/-- The code pair of an `ENC_FIX` result. -/
def codesOf : Result → Int × Int
  | .codes re im => (re, im)
  | _ => (0, 0)

/-! ### Arrays of samples -/

/-- `encode_float` over a sample array: the element-wise map of `ENC_FLT`, in order (41_blockfloat_encoder.md rule
R120). -/
def encodeFloatArray (P : Params) (r : Request) (xs : List (Int × Int)) : Except Response (List Result) :=
  forEach (fun x => resultOf (serveEncFlt P { r with realCode := x.1, imagCode := x.2 })) xs

/-! ### Decode direction (00_scope.md rule R5) -/

/-- The filter request of the caller's choice. -/
def serveFilter (mode : PacketMode) (e sp v : Bool) (P : Params) (r : Request) : Response :=
  match mode with
  | .all => serveFiltAll e sp v P r
  | .list => serveFiltList e sp v P r
  | .one => serveFiltOne e sp v P r

/-- The lane demultiplexer in either mode. -/
def serveLaneDemux (mode : LaneMode) (P : Params) (r : Request) : Response :=
  match mode with
  | .serial => serveLaneDemuxSer P r
  | .parallel => serveLaneDemuxPar P r

/-- `BitfieldCodec.decode` of one lane; without `C` this is `DEC_FIX` (30_encoding.md rule R77). -/
def decodeWord (form : WordForm) (P : Params) (r : Request) (lane : Nat) : Response :=
  match form with
  | .fixed c => serveDecCfix c P { r with raw := lane }
  | .float => serveDecFlt P { r with raw := lane }

/-- Demultiplex the words of one packet and decode each lane. -/
def decodePacket (lm : LaneMode) (form : WordForm) (P : Params) (r : Request) (words : List Int) :
    Except Response (Channels Result) :=
  andThen (resultOf (serveLaneDemux lm P { r with words := words })) fun lanes =>
    forEachLane (fun lane => resultOf (decodeWord form P r lane)) (channelsOf lanes)

/-- The decode direction: Packetizer, lane demultiplexer, decoder. One entry for each sequence the filter answers. DESIGN
CHOICE (log entry 24): every lane is decoded with the one `WordForm` and the one FixedFormat of the call; 44_lane_mux.md
rule R196 leaves it to the caller whether the lanes of a word hold different formats. -/
def decodeDirection (mode : PacketMode) (e sp v : Bool) (lm : LaneMode) (form : WordForm) (P : Params) (r : Request) :
    Except Response (List (Channels Result)) :=
  andThen (resultOf (serveFilter mode e sp v P r)) fun kept => forEach (decodePacket lm form P r) (packetsOf kept)

/-! ### Encode direction (00_scope.md rule R5) -/

/-- A Requantizer request on one code. -/
def serveRequantize (st : Requantize) (P : Params) (r : Request) (code : Int) : Response :=
  match st with
  | .rndFix w h inW outW => serveRndFix w h P { r with inWidth := inW, outWidth := outW, value := code }
  | .satFix inW outW => serveSatFix P { r with inWidth := inW, outWidth := outW, value := code }

/-- A result pattern read as a code of the request's format (30_encoding.md rule R65). -/
def patternCode (r : Request) : Result → Int
  | .word width bits => if isSigned r then sint width bits else bits
  | _ => 0

/-- A chain of Requantizer requests on one code (95_test_vectors.md P4). -/
def requantize (P : Params) (r : Request) : List Requantize → Int → Except Response Int
  | [], code => .ok code
  | st :: rest, code => andThen (resultOf (serveRequantize st P r code)) fun y => requantize P r rest (patternCode r y)

/-- The word of two codes: `PACK_FIX`, or the BlockFloatEncoder with the request's format as `in_prec`. -/
def encodeWord (form : WordForm) (P : Params) (r : Request) (re im : Int) : Response :=
  match form with
  | .fixed c => servePackFix c P { r with realCode := re, imagCode := im }
  | .float => serveEncFlt P { r with realCode := re, imagCode := im }

/-- One numeric sample to one lane word. It is quantized by `ENC_FIX` in the format of `q` (70_reset_and_hazards.md rule
R243); its codes pass the Requantizer; the word is formed in the format of `r`. -/
def encodeSample (stages : List Requantize) (form : WordForm) (P : Params) (q r : Request) (v : Sample) :
    Except Response Int :=
  andThen (resultOf (serveEncFix P { q with sample := v })) fun codes =>
    andThen (requantize P r stages (codesOf codes).1) fun re =>
      andThen (requantize P r stages (codesOf codes).2) fun im =>
        andThen (resultOf (encodeWord form P r re im)) fun word => .ok (wordOf word : Int)

/-- The lane multiplexer in the mode of its data. -/
def serveLaneMux (P : Params) (r : Request) : Channels Int → Response
  | .serial flat => serveLaneMuxSer P { r with flat := flat }
  | .parallel streams => serveLaneMuxPar P { r with streams := streams }

/-- The encode direction: quantizer, Requantizer, encoder (fixed-point or block-float), lane multiplexer. DESIGN CHOICE
(log entry 24): every lane goes through the same stages, `WordForm` and formats. -/
def encodeDirection (stages : List Requantize) (form : WordForm) (P : Params) (q r : Request) (values : Channels Sample) :
    Except Response Result :=
  andThen (forEachLane (encodeSample stages form P q r) values) fun lanes => resultOf (serveLaneMux P r lanes)

end Sys2Proof.Machine
end

