-- ==== Sys2Proof/Machine/Tokens.lean ====
section
/-!
DEFINITION. The boundary functions that turn upstream tokens into the operand types, before any operation runs
(30_encoding.md rule R66, 43_packetizer.md rule R160). No operation calls them: a request holds control bits and integers.
-/

namespace Sys2Proof.Machine

/-- The value of a digit character in a base; letters are lower-case (log entry 12). -/
def digitValue (base : Nat) (c : Char) : Option Nat :=
  if '0' ≤ c ∧ c ≤ '9' then
    if c.toNat - 48 < base then some (c.toNat - 48) else none
  else if 'a' ≤ c ∧ c ≤ 'f' then
    if c.toNat - 87 < base then some (c.toNat - 87) else none
  else none

/-- Read digits, most significant first, onto an accumulated value. -/
def numeralFrom (base : Nat) : Nat → List Char → Option Nat
  | acc, [] => some acc
  | acc, c :: cs =>
    match digitValue base c with
    | none => none
    | some d => numeralFrom base (acc * base + d) cs

/-- A numeral of at least one digit. -/
def numeral (base : Nat) (cs : List Char) : Option Nat :=
  if cs = [] then none else numeralFrom base 0 cs

/-- The literal forms that mean asserted: `1`, `1'b1`, `1b1` (rule R160). -/
def assertedLiterals : List (List Char) := [['1'], ['1', '\'', 'b', '1'], ['1', 'b', '1']]

/-- A text is a prefixed numeral of value 1: `0x` with hexadecimal digits, `0b` with binary digits (rule R160). -/
def prefixedOne : List Char → Bool
  | '0' :: 'x' :: digits => decide (numeral 16 digits = some 1)
  | '0' :: 'b' :: digits => decide (numeral 2 digits = some 1)
  | _ => false

/-- `asserted(token)`: the token numerically equals 1. It never fails: what it cannot read is not asserted (rule R160).
DESIGN CHOICE (log entry 12): a spelling that rule R160 does not list, which 92_eei_decisions.md D19 leaves open, is not
asserted. -/
def asserted : Token → Bool
  | .int n => decide (n = 1)
  | .text cs => assertedLiterals.contains cs || decide (numeral 10 cs = some 1) || prefixedOne cs

/-- The control bits of a signal's tokens (70_reset_and_hazards.md rule R244). -/
def controlBits (tokens : List Token) : List Bool := tokens.map asserted

/-- `raw_of_token`: a native integer is itself, a hexadecimal text is its base-16 value (30_encoding.md rule R66);
`none` where the spec says nothing of the token (93_implementation_defined.md U10: refused). -/
def rawOfToken : Token → Option Nat
  | .int n => if 0 ≤ n then some n.toNat else none
  | .text cs => numeral 16 cs

end Sys2Proof.Machine
end

