-- ==== Sys2Proof/Safety.lean ====
section
/-!
DEFINITION. The terms that claims are stated in: which operands are legal, written from the rules and not from the
machine's checks; the laws of the rules in closed form; and what counts as a safe run: every response the machine hands
out is well-formed (10_state.md rule R30) and every result lies in the range its operation's rule gives.
-/

namespace Sys2Proof.Machine

/-! ### Legal operands -/

/-- `x` is at most the maximum; an unbounded maximum admits every `x`. -/
def withinMax (m : Maximum) (x : Nat) : Prop := ∀ a, m.above = some a → x ≤ m.least + a

/-- A legal FixedFormat for a word of this many parts, 1 or 2 (40_bitfield_codec.md rule R89). -/
def legalFormat (P : Params) (parts : Nat) (r : Request) : Prop :=
  (r.signBits = 0 ∨ r.signBits = 1) ∧ 0 ≤ r.intBits ∧ 0 ≤ r.fracBits ∧ 1 ≤ r.signBits + r.intBits + r.fracBits ∧
    withinMax (wmaxOf P) (parts * (r.signBits + r.intBits + r.fracBits).toNat)

/-- `min_val` of the request's format (40_bitfield_codec.md rule R95). -/
def minCode (r : Request) : Int := if r.signBits = 1 then -2 ^ (r.intBits + r.fracBits).toNat else 0

/-- `max_val` of the request's format (40_bitfield_codec.md rule R95). -/
def maxCode (r : Request) : Int := 2 ^ (r.intBits + r.fracBits).toNat - 1

/-- A code inside the code range of the request's format (40_bitfield_codec.md rule R95). -/
def codeInRange (r : Request) (c : Int) : Prop := minCode r ≤ c ∧ c ≤ maxCode r

/-- Legal widths of a requantizer request (42_requantizer.md rule R140). -/
def legalWidths (P : Params) (r : Request) : Prop :=
  1 ≤ r.inWidth ∧ 1 ≤ r.outWidth ∧ withinMax (wmaxOf P) r.inWidth.toNat ∧ withinMax (wmaxOf P) r.outWidth.toNat

/-- Legal `sample_bits` and maxima of a lane request with `N >= 1` (44_lane_mux.md rule R190). -/
def legalLaneWidths (P : Params) (r : Request) : Prop :=
  1 ≤ r.sampleBits ∧ withinMax (nmaxOf P) r.lanes.toNat ∧ withinMax (wmaxOf P) (r.lanes.toNat * r.sampleBits.toNat)

/-- A legal LaneLayout (44_lane_mux.md rule R190). -/
def legalLanes (P : Params) (r : Request) : Prop := 1 ≤ r.lanes ∧ legalLaneWidths P r

/-- Every supplied signal has the length of the data it gates (43_packetizer.md rule R161). -/
def signalsFit (n : Nat) (signals : List (Option (List Bool))) : Prop :=
  ∀ bits, some bits ∈ signals → bits.length = n

/-! ### The rules in closed form -/

/-- The state in which a request has been served with this response: nothing is in flight, and there is no other state
(10_state.md rule R20, 70_reset_and_hazards.md rule R250). -/
def delivered (x : Response) : State := { inFlight := none, response := some x }

/-- A fault response: the status of the fault and no result (60_exceptions.md rule R213). -/
def faulted (status : Status) (info : FaultInfo) : Response := { status := status, result := none, info := some info }

/-- The code that a word `w` stands for in the request's format: the representative of `w` modulo `2^T` that is balanced
around 0 when the format is signed, and natural when it is not (40_bitfield_codec.md rule R90). -/
def readCode (r : Request) (w : Int) : Int :=
  if r.signBits = 1 then Int.bmod w (2 ^ (r.signBits + r.intBits + r.fracBits).toNat)
  else w % 2 ^ (r.signBits + r.intBits + r.fracBits).toNat

/-- `k` is a nearest integer of `q`, and at a tie the one that `ENC_TIE` names (40_bitfield_codec.md rule R93). -/
def nearestInt (tie : TieRule) (q : Rat) (k : Int) : Prop :=
  |q - k| < 1 / 2 ∨ ∃ j : Int, q = j + 1 / 2 ∧
    k = match tie with
      | .halfUp => j + 1
      | .halfEven => if Even j then j else j + 1
      | .halfAway => if 0 ≤ j then j + 1 else j

/-- `x / 2^sh` rounded to nearest, ties up, in integers (41_blockfloat_encoder.md rule R122). -/
def shiftRoundUp (sh : Nat) (x : Int) : Int := (x + 2 ^ sh / 2) / 2 ^ sh

/-- `x / 2^sh` rounded to nearest, ties away from zero, in integers (42_requantizer.md rule R143). -/
def shiftRoundAway (sh : Nat) (x : Int) : Int := if 0 ≤ x then shiftRoundUp sh x else -shiftRoundUp sh (-x)

/-- Both parts fit a 13-bit two's-complement mantissa after a right shift by `sh`, before rounding
(41_blockfloat_encoder.md rule R123). -/
def fitsShift (re im : Int) (sh : Nat) : Prop :=
  -2 ^ (12 + sh) ≤ re ∧ re < 2 ^ (12 + sh) ∧ -2 ^ (12 + sh) ≤ im ∧ im < 2 ^ (12 + sh)

/-- The mantissa field of one part after a right shift by `sh` (41_blockfloat_encoder.md rule R124). -/
def mantissaField (sh : Nat) (x : Int) : Nat := (min 4095 (shiftRoundUp sh x) % 2 ^ 13).toNat

/-- `sig[k]` is asserted. -/
def assertedIn (sig : List Bool) (k : Nat) : Prop := sig[k]? = some true

/-- A packet that is sought from index `i` on starts at `k` (43_packetizer.md rule R162 step 1). -/
def startsAt (sop : Option (List Bool)) (n i k : Nat) : Prop :=
  match sop with
  | none => k = i
  | some sig => i ≤ k ∧ k < n ∧ assertedIn sig k ∧ ∀ j, i ≤ j → j < k → ¬ assertedIn sig j

/-- A packet that starts at `start` ends before `stop` (43_packetizer.md rule R162 step 2). -/
def stopsAt (eop : Option (List Bool)) (n start stop : Nat) : Prop :=
  match eop with
  | none => stop = n
  | some sig =>
    (∃ k, stop = k + 1 ∧ start ≤ k ∧ k < n ∧ assertedIn sig k ∧ ∀ j, start ≤ j → j < k → ¬ assertedIn sig j) ∨
      (stop = n ∧ ∀ j, start ≤ j → j < n → ¬ assertedIn sig j)

/-- The ranges found from index `i` on (43_packetizer.md rule R162): there is no further packet when `i` has reached `n`
or no SOP is left. -/
def packetChain (sop eop : Option (List Bool)) (n : Nat) : Nat → List PacketRange → Prop
  | i, [] => n ≤ i ∨ ∀ k, ¬ startsAt sop n i k
  | i, p :: rest => i < n ∧ startsAt sop n i p.start ∧ stopsAt eop n p.start p.stop ∧ packetChain sop eop n p.stop rest

/-- The sub-sequence of a range (00_scope.md rule R8 `A[s:e]`). -/
def subsequence {α : Type} (xs : List α) (p : PacketRange) : List α := (xs.drop p.start).take (p.stop - p.start)

/-- The elements whose validity bit is set; all of them without a validity signal (43_packetizer.md rule R164). -/
def validOnly {α : Type} (xs : List α) (valid : Option (List Bool)) (p : PacketRange) : List α :=
  match valid with
  | none => subsequence xs p
  | some bits => ((subsequence (xs.zip bits) p).filter fun y => y.2).map fun y => y.1

/-- The response of an instance with these parameters to a request for this operation. -/
def responseOf (P : Params) : Instr → Request → Response
  | .decFix => serveDecFix P
  | .decCfix c => serveDecCfix c P
  | .encFix => serveEncFix P
  | .packFix c => servePackFix c P
  | .decFlt => serveDecFlt P
  | .encFlt => serveEncFlt P
  | .rndFix w h => serveRndFix w h P
  | .satFix => serveSatFix P
  | .pktRanges e sp => servePktRanges e sp P
  | .filtAll e sp v => serveFiltAll e sp v P
  | .filtList e sp v => serveFiltList e sp v P
  | .filtOne e sp v => serveFiltOne e sp v P
  | .laneDemuxSer => serveLaneDemuxSer P
  | .laneDemuxPar => serveLaneDemuxPar P
  | .laneMuxSer => serveLaneMuxSer P
  | .laneMuxPar => serveLaneMuxPar P

/-! ### Safe runs -/

/-- Ranges in increasing, non-overlapping order from index `lo` on, none of them empty (43_packetizer.md rule R163). -/
def rangesOrdered (lo : Nat) : List PacketRange → Bool
  | [] => true
  | p :: rest => decide (lo ≤ p.start) && decide (p.start < p.stop) && rangesOrdered p.stop rest

/-- Every pattern has the width it is given with. -/
def allBelow (width : Nat) (xs : List Nat) : Bool := xs.all fun x => decide (x < 2 ^ width)

/-- A result lies in its operation's range: patterns are below `2^W` (10_state.md rule R28), decoded mantissas in
`-4096 .. 4095` with a 6-bit exponent (40_bitfield_codec.md rule R99), ranges ordered (43_packetizer.md rule R163), no
packet empty (rule R165), streams of equal length (44_lane_mux.md rule R192). -/
def resultWf : Result → Bool
  | .value _ => true
  | .codes _ _ => true
  | .word width bits => decide (bits < 2 ^ width)
  | .floatValue manI manQ exp =>
    decide (-4096 ≤ manI) && decide (manI ≤ 4095) && decide (-4096 ≤ manQ) && decide (manQ ≤ 4095) && decide (exp < 64)
  | .ranges rs => rangesOrdered 0 rs
  | .samples _ => true
  | .packets ps => ps.all fun sub => !sub.isEmpty
  | .flat width lanes => allBelow width lanes
  | .streams width ss => (ss.all (allBelow width)) && ss.all fun xs => decide (xs.length = (ss.headD []).length)
  | .words width ws => allBelow width ws

/-- A response has a result iff its status is `OK`, and then a result in range and no description of a failure
(10_state.md rule R30). -/
def responseWf (x : Response) : Bool :=
  match x.status, x.result with
  | .ok, some y => resultWf y && x.info.isNone
  | .ok, none => false
  | _, some _ => false
  | _, none => x.info.isSome

/-- The invariant of the machine: the response it holds, if any, is well-formed. -/
def stateInv (s : State) : Bool := s.response.all responseWf

/-- The statuses an operation can return, for a legal descriptor (60_exceptions.md rule R225). -/
def statusAllowed : Instr → Status → Bool
  | .decFlt, x => decide (x = .ok)
  | .encFlt, x => decide (x = .ok ∨ x = .configurationError ∨ x = .expRangeFault)
  | .pktRanges _ _, x => decide (x = .ok ∨ x = .configurationError ∨ x = .lengthMismatchError)
  | .filtAll _ _ _, x => decide (x = .ok ∨ x = .configurationError ∨ x = .lengthMismatchError)
  | .filtList _ _ _, x => decide (x = .ok ∨ x = .configurationError ∨ x = .lengthMismatchError)
  | .filtOne _ _ _, x => decide (x = .ok ∨ x = .configurationError ∨ x = .lengthMismatchError)
  | .laneDemuxSer, x => decide (x = .ok ∨ x = .configurationError ∨ x = .formatError)
  | .laneDemuxPar, x => decide (x = .ok ∨ x = .configurationError ∨ x = .formatError)
  | .laneMuxSer, x => decide (x ≠ .expRangeFault)
  | .laneMuxPar, x => decide (x ≠ .expRangeFault)
  | .decFix, x => decide (x = .ok ∨ x = .configurationError)
  | .decCfix _, x => decide (x = .ok ∨ x = .configurationError)
  | .encFix, x => decide (x = .ok ∨ x = .configurationError)
  | .packFix _, x => decide (x = .ok ∨ x = .configurationError)
  | .rndFix _ _, x => decide (x = .ok ∨ x = .configurationError)
  | .satFix, x => decide (x = .ok ∨ x = .configurationError)

end Sys2Proof.Machine
end

