-- ==== Sys2Proof/Certificates/Slice0/Obligations.lean ====
section
/-!
DEFINITION. The statements for the provers. Each docstring names the rules of spec/ that its statement formalises. A
statement about an operation says the whole next state: nothing in flight, and the response; there is no other state.
-/

open Sys2Proof Sys2Proof.Machine

/-! ### Descriptors -/

/-- 30_encoding.md rule R73: descriptor words written out from the opcode map, at least one for each row. -/
def Obligations.MappedDescriptorsDecode : Prop :=
  decode 0b00000001#8 = .ok .decFix ∧ decode 0b00000010#8 = .ok (.decCfix false) ∧
  decode 0b00100010#8 = .ok (.decCfix true) ∧ decode 0b00000011#8 = .ok .encFix ∧
  decode 0b00000100#8 = .ok (.packFix false) ∧ decode 0b00100100#8 = .ok (.packFix true) ∧
  decode 0b00000101#8 = .ok .decFlt ∧ decode 0b00000110#8 = .ok .encFlt ∧
  decode 0b00001000#8 = .ok (.rndFix false false) ∧ decode 0b00101000#8 = .ok (.rndFix false true) ∧
  decode 0b01001000#8 = .ok (.rndFix true false) ∧ decode 0b01101000#8 = .ok (.rndFix true true) ∧
  decode 0b00001001#8 = .ok .satFix ∧ decode 0b01001100#8 = .ok (.pktRanges false true) ∧
  decode 0b10001100#8 = .ok (.pktRanges true false) ∧ decode 0b00101101#8 = .ok (.filtAll false false true) ∧
  decode 0b01001101#8 = .ok (.filtAll false true false) ∧ decode 0b10101110#8 = .ok (.filtList true false true) ∧
  decode 0b11101111#8 = .ok (.filtOne true true true) ∧ decode 0b00010000#8 = .ok .laneDemuxSer ∧
  decode 0b00110000#8 = .ok .laneDemuxPar ∧ decode 0b00010001#8 = .ok .laneMuxSer ∧
  decode 0b00110001#8 = .ok .laneMuxPar

/-- 30_encoding.md rules R71 to R73: decoding what is encoded gives the operation back, and a descriptor that decodes is
the encoding of what it decodes to, so no bit of it is dropped. -/
def Obligations.DecodeAndEncodeAgree : Prop :=
  (∀ i : Instr, decode (encode i) = .ok i) ∧ ∀ (d : Descriptor) (i : Instr), decode d = .ok i → encode i = d

/-- 30_encoding.md rules R73, R74: a descriptor is decoded iff it is legal, and then it matches its row of the opcode
table and no other row. -/
def Obligations.LegalDescriptorsMatchOneRow : Prop :=
  ∀ d : Descriptor,
    (d.legal = true ↔ ∃ i, decode d = .ok i) ∧
    ∀ i j : Instr, decode d = .ok i → (d &&& (rowOf i).1 = (rowOf i).2 ∧
      (d &&& (rowOf j).1 = (rowOf j).2 → rowOf j = rowOf i))

/-! ### The machine -/

/-- 10_state.md rules R20, R30: when the descriptor of the request in flight decodes, the step performs that operation,
and nothing is done around it. -/
def Obligations.StepRunsDecodedOperation : Prop :=
  ∀ (s : State) (r : Request) (i : Instr), s.inFlight = some r → decode r.opd = .ok i → step s = exec i s

/-- 30_encoding.md rule R74: an illegal descriptor is answered with `FormatError` and no result, and nothing else
happens. -/
def Obligations.IllegalDescriptorRaisesFormatError : Prop :=
  ∀ (s : State) (r : Request), s.inFlight = some r → r.opd.legal = false →
    ∃ info, step s = .next (delivered (faulted .formatError info))

/-- 10_state.md rule R30: one request produces exactly one response, after which nothing is in flight. -/
def Obligations.OneRequestOneResponse : Prop :=
  ∀ (s : State) (r : Request), s.inFlight = some r →
    ∃ x, step s = .next (delivered x) ∧ (x.result.isSome = true ↔ x.status = .ok)

/-- 10_state.md rule R20, 60_exceptions.md rule R215: the step of a request depends on that request alone, so a faulted
request before it, or any other, leaves no trace. -/
def Obligations.StepDependsOnlyOnRequest : Prop :=
  ∀ (s t : State) (r : Request), s.inFlight = some r → t.inFlight = some r →
    step s = step t ∧ ∀ i, exec i s = exec i t

/-- The invariant that every step keeps: the response the machine holds has a result iff its status is `OK`, and the
result lies in the range its operation gives (10_state.md rules R28, R30; Safety.lean `stateInv`). -/
def Obligations.StepKeepsResponseInvariant : Prop :=
  ∀ s t : State, stateInv s = true → step s = .next t → stateInv t = true

/-- The invariant holds at reset, where no response is held (that is the model's choice, log entry 4). -/
def Obligations.ResetMeetsResponseInvariant : Prop := stateInv State.reset = true

/-- 70_reset_and_hazards.md rule R240: reset abandons whatever is in flight, and after it the machine takes any request
and serves it as at any other time. -/
def Obligations.ResetLeavesMachineReady : Prop :=
  ∀ (s t : State) (r : Request), (assertReset s).inFlight = none ∧
    ∃ u, present r (assertReset s) = some u ∧ u.inFlight = some r ∧ (t.inFlight = some r → step u = step t)

/-- 00_scope.md rule R6, 92_eei_decisions.md D12: the machine answers as the instance with its parameters does, and the
maxima of an instance are only guards: two instances with the same `EXP_BIAS` and `ENC_TIE` that both answer `OK` give the
same result. -/
def Obligations.MaximaAreOnlyGuards : Prop :=
  (∀ (i : Instr) (s : State) (r : Request), s.inFlight = some r →
    exec i s = .next (delivered (responseOf Config.params i r))) ∧
  ∀ (i : Instr) (P Q : Params) (r : Request), P.expBias = Q.expBias → P.encTie = Q.encTie →
    (responseOf P i r).status = .ok → (responseOf Q i r).status = .ok → responseOf P i r = responseOf Q i r

/-- 60_exceptions.md rule R225: the statuses each operation can return for a legal descriptor. -/
def Obligations.OperationsReturnTheirStatuses : Prop :=
  ∀ (i : Instr) (s t : State) (x : Response), exec i s = .next t → t.response = some x →
    statusAllowed i x.status = true

/-! ### BitfieldCodec -/

/-- 40_bitfield_codec.md rule R89: every operation that takes a format raises `ConfigurationError`, with no result,
unless the format is legal. -/
def Obligations.BadFormatRaisesConfigurationError : Prop :=
  ∀ (i : Instr) (parts : Nat) (s : State) (r : Request),
    (i, parts) ∈ [(.decFix, 1), (.decCfix false, 1), (.decCfix true, 2), (.encFix, 1), (.packFix false, 1),
      (.packFix true, 2), (.encFlt, 1)] →
    s.inFlight = some r → ¬ legalFormat Config.params parts r →
    ∃ info, exec i s = .next (delivered (faulted .configurationError info))

/-- 40_bitfield_codec.md rule R90: `DEC_FIX` reads `raw` as two's complement modulo `2^T` when the format is signed, as a
natural number modulo `2^T` when not, and divides by `2^f`. -/
def Obligations.DecFixReadsCodeOverScale : Prop :=
  ∀ (s : State) (r : Request), s.inFlight = some r → legalFormat Config.params 1 r →
    exec .decFix s = .next (delivered (okResponse (.value (.real ((readCode r r.raw : Rat) / 2 ^ r.fracBits.toNat)))))

/-- 40_bitfield_codec.md rule R92: with `C`, I is the low `T` bits and Q the next `T` bits, each decoded on its own;
without `C` the low `T` bits are a real Sample. -/
def Obligations.DecCfixReadsHalves : Prop :=
  ∀ (c : Bool) (s : State) (r : Request), s.inFlight = some r →
    legalFormat Config.params (if c then 2 else 1) r →
    exec (.decCfix c) s = .next (delivered (okResponse (.value (
        if c then .complex ((readCode r r.raw : Rat) / 2 ^ r.fracBits.toNat)
            ((readCode r (r.raw / 2 ^ (r.signBits + r.intBits + r.fracBits).toNat) : Rat) / 2 ^ r.fracBits.toNat)
        else .real ((readCode r r.raw : Rat) / 2 ^ r.fracBits.toNat)))))

/-- 40_bitfield_codec.md rules R93 to R95: `ENC_FIX` scales by `2^f`, takes a nearest integer (the one `ENC_TIE` names at
a tie), then clips it into the code range, for each part on its own; a real Sample has imaginary part 0. -/
def Obligations.EncFixScalesRoundsClips : Prop :=
  ∀ (s : State) (r : Request), s.inFlight = some r → legalFormat Config.params 1 r →
    ∃ k l : Int, nearestInt Config.encTie (sampleRe r.sample * 2 ^ r.fracBits.toNat) k ∧
      nearestInt Config.encTie (sampleIm r.sample * 2 ^ r.fracBits.toNat) l ∧
      exec .encFix s = .next (delivered (okResponse
        (.codes (max (minCode r) (min (maxCode r) k)) (max (minCode r) (min (maxCode r) l)))))

/-- 40_bitfield_codec.md rule R96, saturation bound: a part whose scaled value is above `max_val` gives `max_val`, below
`min_val` gives `min_val`, silently: the status is `OK`. -/
def Obligations.EncFixSaturatesToNearerBound : Prop :=
  ∀ (s : State) (r : Request), s.inFlight = some r → legalFormat Config.params 1 r →
    ∃ a b : Int, exec .encFix s = .next (delivered (okResponse (.codes a b))) ∧
      ((maxCode r : Rat) < sampleRe r.sample * 2 ^ r.fracBits.toNat → a = maxCode r) ∧
      (sampleRe r.sample * 2 ^ r.fracBits.toNat < (minCode r : Rat) → a = minCode r) ∧
      ((maxCode r : Rat) < sampleIm r.sample * 2 ^ r.fracBits.toNat → b = maxCode r) ∧
      (sampleIm r.sample * 2 ^ r.fracBits.toNat < (minCode r : Rat) → b = minCode r)

/-- 40_bitfield_codec.md rule R96, round trip: decoding the code of a value inside the range gives a value within
`2^-(f+1)` of it, for every tie rule. -/
def Obligations.EncodeThenDecodeFixedIsClose : Prop :=
  ∀ (s : State) (r : Request) (v : Rat), s.inFlight = some r → legalFormat Config.params 1 r → r.sample = .real v →
    (minCode r : Rat) ≤ v * 2 ^ r.fracBits.toNat → v * 2 ^ r.fracBits.toNat ≤ (maxCode r : Rat) →
    ∃ (c : Int) (w : Rat),
      exec .encFix s = .next (delivered (okResponse (.codes c 0))) ∧
      (∀ t : State, t.inFlight = some { r with raw := c } →
        exec .decFix t = .next (delivered (okResponse (.value (.real w))))) ∧
      |w - v| ≤ 1 / 2 ^ (r.fracBits.toNat + 1)

/-- 40_bitfield_codec.md rule R91: decoding the pattern of a code in range gives the code over `2^f`. -/
def Obligations.DecFixInvertsCodePattern : Prop :=
  ∀ (s : State) (r : Request) (c : Int), legalFormat Config.params 1 r → codeInRange r c →
    s.inFlight = some { r with raw := (c % 2 ^ (r.signBits + r.intBits + r.fracBits).toNat) } →
    exec .decFix s = .next (delivered (okResponse (.value (.real ((c : Rat) / 2 ^ r.fracBits.toNat)))))

/-- 40_bitfield_codec.md rule R97: `PACK_FIX` puts the two's-complement pattern of the real code in the low `T` bits and,
with `C`, that of the imaginary code above it; without `C` the imaginary code is ignored. -/
def Obligations.PackFixBuildsWord : Prop :=
  ∀ (c : Bool) (s : State) (r : Request), s.inFlight = some r →
    legalFormat Config.params (if c then 2 else 1) r → codeInRange r r.realCode →
    (c = true → codeInRange r r.imagCode) →
    exec (.packFix c) s = .next (delivered (okResponse (
        if c then .word (2 * (r.signBits + r.intBits + r.fracBits).toNat)
          (r.imagCode % 2 ^ (r.signBits + r.intBits + r.fracBits).toNat *
              2 ^ (r.signBits + r.intBits + r.fracBits).toNat +
            r.realCode % 2 ^ (r.signBits + r.intBits + r.fracBits).toNat).toNat
        else .word (r.signBits + r.intBits + r.fracBits).toNat
          (r.realCode % 2 ^ (r.signBits + r.intBits + r.fracBits).toNat).toNat)))

/-- 40_bitfield_codec.md rule R97, 41_blockfloat_encoder.md rule R124: a code outside the code range of a legal format is a
`ConfigurationError` with no result; for `ENC_FLT` this holds whatever the exponent would be (60_exceptions.md rule
R214). -/
def Obligations.CodeOutOfRangeRaisesConfigurationError : Prop :=
  ∀ (i : Instr) (s : State) (r : Request), s.inFlight = some r →
    ((i = .packFix false ∧ legalFormat Config.params 1 r ∧ ¬ codeInRange r r.realCode) ∨
      (i = .packFix true ∧ legalFormat Config.params 2 r ∧ ¬ (codeInRange r r.realCode ∧ codeInRange r r.imagCode)) ∨
      (i = .encFlt ∧ legalFormat Config.params 1 r ∧ ¬ (codeInRange r r.realCode ∧ codeInRange r r.imagCode))) →
    ∃ info, exec i s = .next (delivered (faulted .configurationError info))

/-- 40_bitfield_codec.md rule R97, inverse law: decoding a packed complex word gives both codes over `2^f`. -/
def Obligations.DecCfixInvertsPackFix : Prop :=
  ∀ (s : State) (r : Request), s.inFlight = some r → legalFormat Config.params 2 r →
    codeInRange r r.realCode → codeInRange r r.imagCode →
    ∃ (width bits : Nat),
      exec (.packFix true) s = .next (delivered (okResponse (.word width bits))) ∧
      ∀ t : State, t.inFlight = some { r with raw := bits } →
        exec (.decCfix true) t = .next
            (delivered (okResponse (.value (.complex ((r.realCode : Rat) / 2 ^ r.fracBits.toNat)
            ((r.imagCode : Rat) / 2 ^ r.fracBits.toNat)))))

/-- 40_bitfield_codec.md rule R99: `DEC_FLT` reads each 13-bit mantissa as a signed integer and hands out the 6-bit
exponent field beside them; it raises no fault. -/
def Obligations.DecFltReadsFields : Prop :=
  ∀ (s : State) (r : Request), s.inFlight = some r →
    exec .decFlt s = .next (delivered (okResponse (.floatValue
        (Int.bmod r.raw (2 ^ 13)) (Int.bmod (r.raw / 2 ^ 13) (2 ^ 13)) (r.raw / 2 ^ 26 % 2 ^ 6).toNat)))

/-- 40_bitfield_codec.md rule R99, 70_reset_and_hazards.md rule R246: two words that differ only in bits 31 to 26, or
above, decode to the same Sample. -/
def Obligations.DecFltIgnoresExponent : Prop :=
  ∀ (s t : State) (r : Request) (raw' : Int), s.inFlight = some r → t.inFlight = some { r with raw := raw' } →
    r.raw % 2 ^ 26 = raw' % 2 ^ 26 →
    ∃ (manI manQ : Int) (e e' : Nat),
      exec .decFlt s = .next (delivered (okResponse (.floatValue manI manQ e))) ∧
      exec .decFlt t = .next (delivered (okResponse (.floatValue manI manQ e')))

/-! ### BlockFloatEncoder -/

/-- 41_blockfloat_encoder.md rule R121: `exp_calc(x) + 1` is the least width in which `x` has a two's-complement
pattern. -/
def Obligations.ExpCalcIsLeastWidth : Prop :=
  ∀ (x : Int) (w : Nat), expCalc x ≤ w ↔ -2 ^ w ≤ x ∧ x < 2 ^ w

/-- 41_blockfloat_encoder.md rule R122: `hdl_round` rounds to nearest with ties up, and on a right shift of an integer it
is `floor((x + 2^(sh-1)) / 2^sh)`, for `sh = 0` the integer itself. -/
def Obligations.HdlRoundRoundsHalfUp : Prop :=
  (∀ (q : Rat) (k : Int), hdlRound q = k ↔ (k : Rat) - 1 / 2 ≤ q ∧ q < (k : Rat) + 1 / 2) ∧
  (∀ (x : Int) (sh : Nat), 1 ≤ sh → hdlRound ((x : Rat) / 2 ^ sh) = (x + 2 ^ (sh - 1)) / 2 ^ sh) ∧
  ∀ x : Int, hdlRound (x : Rat) = x

/-- 41_blockfloat_encoder.md rule R126: an all-zero sample encodes to word 0 in every valid `in_prec`, for every
`EXP_BIAS`. -/
def Obligations.EncFltZeroIsCanonical : Prop :=
  (∀ (s : State) (r : Request), s.inFlight = some r → legalFormat Config.params 1 r → r.realCode = 0 → r.imagCode = 0 →
    exec .encFlt s = .next (delivered (okResponse (.word 32 0)))) ∧
  ∀ (P : Params) (r : Request), legalFormat P 1 r → r.realCode = 0 → r.imagCode = 0 →
    serveEncFlt P r = okResponse (.word 32 0)

/-- 41_blockfloat_encoder.md rules R123, R124: a sample that is not all zero, with `sh` the least shift after which both
parts fit, is packed from its rounded mantissas under the exponent `sh + EXP_BIAS`; an exponent above 63 is an
`ExpRangeFault` that names the exponent (60_exceptions.md rule R210), with no result. -/
def Obligations.EncFltPacksSharedExponent : Prop :=
  ∀ (s : State) (r : Request) (sh : Nat), s.inFlight = some r → legalFormat Config.params 1 r →
    codeInRange r r.realCode → codeInRange r r.imagCode → ¬ (r.realCode = 0 ∧ r.imagCode = 0) →
    fitsShift r.realCode r.imagCode sh → (∀ k, k < sh → ¬ fitsShift r.realCode r.imagCode k) →
    exec .encFlt s = .next (delivered (
        if sh + Config.expBias ≤ 63 then
          okResponse (.word 32 ((sh + Config.expBias) * 2 ^ 26 + mantissaField sh r.imagCode * 2 ^ 13 +
            mantissaField sh r.realCode))
        else faulted .expRangeFault (.exponent (sh + Config.expBias))))

/-- 40_bitfield_codec.md rule R99, last consequence: decoding an encoded word gives the parts back when both lie in
`-4096 .. 4095` (and `EXP_BIAS <= 63`, or the sample is all zero). -/
def Obligations.DecFltInvertsEncFltInRange : Prop :=
  ∀ (s : State) (r : Request), s.inFlight = some r → legalFormat Config.params 1 r →
    codeInRange r r.realCode → codeInRange r r.imagCode →
    -4096 ≤ r.realCode → r.realCode ≤ 4095 → -4096 ≤ r.imagCode → r.imagCode ≤ 4095 →
    (Config.expBias ≤ 63 ∨ (r.realCode = 0 ∧ r.imagCode = 0)) →
    ∃ (bits e : Nat), exec .encFlt s = .next (delivered (okResponse (.word 32 bits))) ∧
      ∀ t : State, t.inFlight = some { r with raw := bits } →
        exec .decFlt t = .next (delivered (okResponse (.floatValue r.realCode r.imagCode e)))

/-- 41_blockfloat_encoder.md rule R120, 60_exceptions.md rule R215: the array form of `encode_float` gives the words of
its samples in order when each sample alone is answered `OK`, and fails as a whole as soon as one sample faults. -/
def Obligations.EncodeFloatArrayIsElementwise : Prop :=
  ∀ (P : Params) (r : Request) (xs : List (Int × Int)),
    (∀ ys, encodeFloatArray P r xs = .ok ys ↔
      List.Forall₂ (fun x y => serveEncFlt P { r with realCode := x.1, imagCode := x.2 } = okResponse y) xs ys) ∧
    ((∃ x ∈ xs, (serveEncFlt P { r with realCode := x.1, imagCode := x.2 }).status ≠ .ok) ↔
      ∃ e, encodeFloatArray P r xs = .error e)

/-! ### Requantizer -/

/-- 42_requantizer.md rule R148: with equal widths `RND_FIX`, under every flag setting, and `SAT_FIX` return the value
itself. -/
def Obligations.EqualWidthsAreIdentity : Prop :=
  ∀ (w h : Bool) (s : State) (r : Request), s.inFlight = some r → legalWidths Config.params r →
    r.inWidth = r.outWidth → 0 ≤ r.value → r.value < 2 ^ r.inWidth.toNat →
    exec (.rndFix w h) s =
      .next (delivered (okResponse (.word r.outWidth.toNat r.value.toNat))) ∧
    exec .satFix s = .next (delivered (okResponse (.word r.outWidth.toNat r.value.toNat)))

/-- 42_requantizer.md rules R141, R146: when the width does not shrink, both operations sign-extend: the result is the
`out_width`-bit pattern of the signed reading. -/
def Obligations.WideningSignExtends : Prop :=
  ∀ (w h : Bool) (s : State) (r : Request), s.inFlight = some r → legalWidths Config.params r →
    r.inWidth ≤ r.outWidth →
    exec (.rndFix w h) s = .next (delivered (okResponse (.word r.outWidth.toNat
      (Int.bmod r.value (2 ^ r.inWidth.toNat) % 2 ^ r.outWidth.toNat).toNat))) ∧
    exec .satFix s = .next (delivered (okResponse (.word r.outWidth.toNat
      (Int.bmod r.value (2 ^ r.inWidth.toNat) % 2 ^ r.outWidth.toNat).toNat)))

/-- 42_requantizer.md rule R143: the closed form of narrowing `RND_FIX`: the signed reading over `2^drop` rounded to
nearest, ties up, or away from zero with `H`; kept at the positive maximum, or wrapped with `W`. -/
def Obligations.RndFixRoundsToNearest : Prop :=
  ∀ (w h : Bool) (s : State) (r : Request), s.inFlight = some r → legalWidths Config.params r →
    r.outWidth < r.inWidth →
    ∃ y : Int,
      y = (if h then shiftRoundAway (r.inWidth - r.outWidth).toNat (Int.bmod r.value (2 ^ r.inWidth.toNat))
        else shiftRoundUp (r.inWidth - r.outWidth).toNat (Int.bmod r.value (2 ^ r.inWidth.toNat))) ∧
      exec (.rndFix w h) s = .next (delivered (okResponse (.word r.outWidth.toNat
        ((if w then y else min y (2 ^ (r.outWidth.toNat - 1) - 1)) % 2 ^ r.outWidth.toNat).toNat)))

/-- 42_requantizer.md rule R147: narrowing `SAT_FIX` clamps the signed reading to the signed range of `out_width`
bits. -/
def Obligations.SatFixClampsSignedReading : Prop :=
  ∀ (s : State) (r : Request), s.inFlight = some r → legalWidths Config.params r → r.outWidth < r.inWidth →
    ∃ p : Nat, exec .satFix s = .next (delivered (okResponse (.word r.outWidth.toNat p))) ∧
      p < 2 ^ r.outWidth.toNat ∧
      Int.bmod p (2 ^ r.outWidth.toNat) =
        max (-2 ^ (r.outWidth.toNat - 1))
          (min (2 ^ (r.outWidth.toNat - 1) - 1) (Int.bmod r.value (2 ^ r.inWidth.toNat)))

/-- 42_requantizer.md rule R140: a width below 1 or above `WMAX` is a `ConfigurationError` with no result. -/
def Obligations.BadWidthRaisesConfigurationError : Prop :=
  ∀ (i : Instr) (s : State) (r : Request), (i = .satFix ∨ ∃ w h, i = .rndFix w h) →
    s.inFlight = some r → ¬ legalWidths Config.params r →
    ∃ info, exec i s = .next (delivered (faulted .configurationError info))

/-- 10_state.md rule R29, 70_reset_and_hazards.md rule R242: bits at and above the width of a decode or requantizer operand
are not looked at, so operands that agree modulo `2^W` get the same response. -/
def Obligations.HighOperandBitsAreIgnored : Prop :=
  ∀ (s t : State) (r : Request) (raw' value' : Int), s.inFlight = some r →
    t.inFlight = some { r with raw := raw', value := value' } →
    (r.raw % 2 ^ (r.signBits + r.intBits + r.fracBits).toNat = raw' % 2 ^ (r.signBits + r.intBits + r.fracBits).toNat →
      exec .decFix s = exec .decFix t ∧ exec (.decCfix false) s = exec (.decCfix false) t) ∧
    (r.raw % 2 ^ (2 * (r.signBits + r.intBits + r.fracBits).toNat) =
        raw' % 2 ^ (2 * (r.signBits + r.intBits + r.fracBits).toNat) →
      exec (.decCfix true) s = exec (.decCfix true) t) ∧
    (r.raw % 2 ^ 32 = raw' % 2 ^ 32 → exec .decFlt s = exec .decFlt t) ∧
    (r.value % 2 ^ r.inWidth.toNat = value' % 2 ^ r.inWidth.toNat →
      exec .satFix s = exec .satFix t ∧ ∀ w h, exec (.rndFix w h) s = exec (.rndFix w h) t)

/-! ### Packetizer -/

/-- 43_packetizer.md rule R162: `PKT_RANGES` answers the ranges of the scan: each starts at the first SOP from the end of
the one before it (there, without an SOP signal), ends after the first EOP from its start (at `n` where there is none), and
no further packet is left at the end. -/
def Obligations.PktRangesFollowScan : Prop :=
  ∀ (e sp : Bool) (s : State) (r : Request), s.inFlight = some r → withinMax (lenmaxOf Config.params) r.count →
    signalsFit r.count [supplied sp r.sop, supplied e r.eop] →
    ∃ rs, exec (.pktRanges e sp) s = .next (delivered (okResponse (.ranges rs))) ∧
      packetChain (supplied sp r.sop) (supplied e r.eop) r.count 0 rs

/-- 43_packetizer.md rule R168: the one-index-per-step frame detector gives the same ranges. -/
def Obligations.PktRangesEqualStreamingDetector : Prop :=
  ∀ (e sp : Bool) (s : State) (r : Request), s.inFlight = some r → withinMax (lenmaxOf Config.params) r.count →
    signalsFit r.count [supplied sp r.sop, supplied e r.eop] →
    exec (.pktRanges e sp) s = .next
        (delivered (okResponse (.ranges (streamRanges r.count (supplied sp r.sop) (supplied e r.eop)))))

/-- 43_packetizer.md rule R163: ranges are not empty, lie in `[0, n)`, and come in increasing, non-overlapping order;
without any signal the whole of `[0, n)` is one packet when `n >= 1`; with an SOP signal alone there is at most one
range; with an EOP signal alone they tile `[0, n)`. -/
def Obligations.PktRangesAreOrderedPackets : Prop :=
  ∀ (e sp : Bool) (s : State) (r : Request), s.inFlight = some r → withinMax (lenmaxOf Config.params) r.count →
    signalsFit r.count [supplied sp r.sop, supplied e r.eop] →
    ∃ rs, exec (.pktRanges e sp) s = .next (delivered (okResponse (.ranges rs))) ∧
      (∀ p ∈ rs, p.start < p.stop ∧ p.stop ≤ r.count) ∧ rs.Pairwise (fun p q => p.stop ≤ q.start) ∧
      (e = false → sp = false → rs = if r.count = 0 then [] else [{ start := 0, stop := r.count }]) ∧
      (e = false → rs.length ≤ 1) ∧
      (sp = false → rs.flatMap (fun p => List.range' p.start (p.stop - p.start)) = List.range r.count)

/-- 43_packetizer.md rule R164: `FILT_ALL` answers the valid samples of each range, concatenated in order. -/
def Obligations.FiltAllKeepsValidSamples : Prop :=
  ∀ (e sp v : Bool) (s : State) (r : Request), s.inFlight = some r →
    withinMax (lenmaxOf Config.params) r.samples.length →
    signalsFit r.samples.length [supplied v r.valid, supplied sp r.sop, supplied e r.eop] →
    ∃ rs, packetChain (supplied sp r.sop) (supplied e r.eop) r.samples.length 0 rs ∧
      exec (.filtAll e sp v) s = .next
          (delivered (okResponse (.samples (rs.flatMap (validOnly r.samples (supplied v r.valid))))))

/-- 43_packetizer.md rule R165: `FILT_LIST` answers the valid samples of each range as a list of its own; lists that are
empty are dropped. -/
def Obligations.FiltListKeepsPacketsApart : Prop :=
  ∀ (e sp v : Bool) (s : State) (r : Request), s.inFlight = some r →
    withinMax (lenmaxOf Config.params) r.samples.length →
    signalsFit r.samples.length [supplied v r.valid, supplied sp r.sop, supplied e r.eop] →
    ∃ rs, packetChain (supplied sp r.sop) (supplied e r.eop) r.samples.length 0 rs ∧
      exec (.filtList e sp v) s = .next (delivered (okResponse (.packets
          ((rs.map (validOnly r.samples (supplied v r.valid))).filter (fun sub => sub ≠ [])))))

/-- 43_packetizer.md rule R166: `FILT_ONE` answers the valid samples of the first range, `[]` without one; it does not
move on when that range filters to nothing. -/
def Obligations.FiltOneTakesFirstRange : Prop :=
  ∀ (e sp v : Bool) (s : State) (r : Request), s.inFlight = some r →
    withinMax (lenmaxOf Config.params) r.samples.length →
    signalsFit r.samples.length [supplied v r.valid, supplied sp r.sop, supplied e r.eop] →
    ∃ rs, packetChain (supplied sp r.sop) (supplied e r.eop) r.samples.length 0 rs ∧
      exec (.filtOne e sp v) s = .next
          (delivered (okResponse (.samples ((rs.head?.map (validOnly r.samples (supplied v r.valid))).getD []))))

/-- 43_packetizer.md rule R167: relations among the four operations on the same operands. -/
def Obligations.PacketizerOperationsAgree : Prop :=
  ∀ (e sp v : Bool) (s : State) (r : Request), s.inFlight = some r → r.count = r.samples.length →
    withinMax (lenmaxOf Config.params) r.samples.length →
    signalsFit r.samples.length [supplied v r.valid, supplied sp r.sop, supplied e r.eop] →
    ∃ rs all packets one,
      exec (.pktRanges e sp) s = .next (delivered (okResponse (.ranges rs))) ∧
      exec (.filtAll e sp v) s = .next (delivered (okResponse (.samples all))) ∧
      exec (.filtList e sp v) s = .next (delivered (okResponse (.packets packets))) ∧
      exec (.filtOne e sp v) s = .next (delivered (okResponse (.samples one))) ∧
      all = packets.flatten ∧
      (v = false → packets = rs.map (subsequence r.samples)) ∧
      one = (rs.head?.map (validOnly r.samples (supplied v r.valid))).getD [] ∧
      (one ≠ [] → packets.head? = some one)

/-- 20_memory.md rule R41: elements of the data array are opaque. `PKT_RANGES` does not depend on them, and a filter on
renamed samples selects the same elements, the valid ones of the scanned ranges, and answers them renamed; where its
operands fail a check, its response does not depend on the elements. -/
def Obligations.FiltersTreatElementsAsOpaque : Prop :=
  ∀ (e sp v : Bool) (f : Int → Int) (s t : State) (r : Request), s.inFlight = some r →
    t.inFlight = some { r with samples := r.samples.map f } →
    exec (.pktRanges e sp) t = exec (.pktRanges e sp) s ∧
    (withinMax (lenmaxOf Config.params) r.samples.length →
      signalsFit r.samples.length [supplied v r.valid, supplied sp r.sop, supplied e r.eop] →
      ∃ (rs : List PacketRange) (all one : List Int) (packets : List (List Int)),
        packetChain (supplied sp r.sop) (supplied e r.eop) r.samples.length 0 rs ∧
        all = rs.flatMap (validOnly r.samples (supplied v r.valid)) ∧
        packets = (rs.map (validOnly r.samples (supplied v r.valid))).filter (fun sub => sub ≠ []) ∧
        one = (rs.head?.map (validOnly r.samples (supplied v r.valid))).getD [] ∧
        exec (.filtAll e sp v) s = .next (delivered (okResponse (.samples all))) ∧
        exec (.filtAll e sp v) t = .next (delivered (okResponse (.samples (all.map f)))) ∧
        exec (.filtList e sp v) s = .next (delivered (okResponse (.packets packets))) ∧
        exec (.filtList e sp v) t = .next (delivered (okResponse (.packets (packets.map (List.map f))))) ∧
        exec (.filtOne e sp v) s = .next (delivered (okResponse (.samples one))) ∧
        exec (.filtOne e sp v) t = .next (delivered (okResponse (.samples (one.map f))))) ∧
    (¬ (withinMax (lenmaxOf Config.params) r.samples.length ∧
        signalsFit r.samples.length [supplied v r.valid, supplied sp r.sop, supplied e r.eop]) →
      ∀ i, i = .filtAll e sp v ∨ i = .filtList e sp v ∨ i = .filtOne e sp v → exec i t = exec i s)

/-- 43_packetizer.md rule R161: a supplied control array of another length than the data it gates is a
`LengthMismatchError` with no result. -/
def Obligations.WrongSignalLengthRaisesLengthMismatch : Prop :=
  ∀ (e sp v : Bool) (s : State) (r : Request), s.inFlight = some r →
    (withinMax (lenmaxOf Config.params) r.count → ¬ signalsFit r.count [supplied sp r.sop, supplied e r.eop] →
      ∃ info, exec (.pktRanges e sp) s = .next (delivered (faulted .lengthMismatchError info))) ∧
    (withinMax (lenmaxOf Config.params) r.samples.length →
      ¬ signalsFit r.samples.length [supplied v r.valid, supplied sp r.sop, supplied e r.eop] →
      ∀ i, i = .filtAll e sp v ∨ i = .filtList e sp v ∨ i = .filtOne e sp v →
        ∃ info, exec i s = .next (delivered (faulted .lengthMismatchError info)))

/-- 43_packetizer.md rule R161, 60_exceptions.md rule R214: for every instance, more data than `LENMAX` is a
`ConfigurationError` with no result, whatever the lengths of the control arrays. -/
def Obligations.TooLongRaisesConfigurationErrorFirst : Prop :=
  ∀ (P : Params) (e sp v : Bool) (r : Request),
    (¬ withinMax (lenmaxOf P) r.count →
      (servePktRanges e sp P r).status = .configurationError ∧ (servePktRanges e sp P r).result = none) ∧
    (¬ withinMax (lenmaxOf P) r.samples.length →
      (serveFiltAll e sp v P r).status = .configurationError ∧ (serveFiltAll e sp v P r).result = none ∧
      (serveFiltList e sp v P r).status = .configurationError ∧ (serveFiltList e sp v P r).result = none ∧
      (serveFiltOne e sp v P r).status = .configurationError ∧ (serveFiltOne e sp v P r).result = none)

/-! ### LaneMux/Demux -/

/-- 44_lane_mux.md rule R191: element `w*N + i` of the flat stream is lane `i` of word `w`, bits
`(i+1)*sample_bits-1 .. i*sample_bits`. -/
def Obligations.LaneDemuxSerialFlattensLanes : Prop :=
  ∀ (s : State) (r : Request), s.inFlight = some r → legalLanes Config.params r →
    ∃ out, exec .laneDemuxSer s = .next (delivered (okResponse (.flat r.sampleBits.toNat out))) ∧
      out.length = r.lanes.toNat * r.words.length ∧
      ∀ (w i : Nat) (word : Int), r.words[w]? = some word → i < r.lanes.toNat →
        out[w * r.lanes.toNat + i]? =
          some (word / 2 ^ (i * r.sampleBits.toNat) % 2 ^ r.sampleBits.toNat).toNat

/-- 44_lane_mux.md rule R192: element `w` of stream `i` is lane `i` of word `w`; there are `N` streams, each as long as
the words. -/
def Obligations.LaneDemuxParallelGathersStreams : Prop :=
  ∀ (s : State) (r : Request), s.inFlight = some r → legalLanes Config.params r →
    ∃ out, exec .laneDemuxPar s = .next (delivered (okResponse (.streams r.sampleBits.toNat out))) ∧
      out.length = r.lanes.toNat ∧
      ∀ i, i < r.lanes.toNat → ∃ stream, out[i]? = some stream ∧ stream.length = r.words.length ∧
        ∀ (w : Nat) (word : Int), r.words[w]? = some word →
          stream[w]? = some (word / 2 ^ (i * r.sampleBits.toNat) % 2 ^ r.sampleBits.toNat).toNat

/-- 44_lane_mux.md rule R193: word `w` holds, in lane `i`, element `w*N + i` of the flat stream modulo
`2^sample_bits`. -/
def Obligations.LaneMuxSerialPacksWords : Prop :=
  ∀ (s : State) (r : Request), s.inFlight = some r → legalLanes Config.params r →
    r.flat.length % r.lanes.toNat = 0 →
    ∃ ws, exec .laneMuxSer s = .next (delivered (okResponse (.words (r.lanes.toNat * r.sampleBits.toNat) ws))) ∧
      ws.length = r.flat.length / r.lanes.toNat ∧
      ∀ w word : Nat, ws[w]? = some word → word < 2 ^ (r.lanes.toNat * r.sampleBits.toNat) ∧
        ∀ i, i < r.lanes.toNat → ∃ x : Int, r.flat[w * r.lanes.toNat + i]? = some x ∧
          word / 2 ^ (i * r.sampleBits.toNat) % 2 ^ r.sampleBits.toNat = (x % 2 ^ r.sampleBits.toNat).toNat

/-- 44_lane_mux.md rule R194: word `w` holds, in lane `i`, element `w` of stream `i` modulo `2^sample_bits`. -/
def Obligations.LaneMuxParallelPacksWords : Prop :=
  ∀ (s : State) (r : Request) (len : Nat), s.inFlight = some r → legalLanes Config.params r →
    r.streams.length = r.lanes.toNat → (∀ stream ∈ r.streams, stream.length = len) →
    ∃ ws, exec .laneMuxPar s = .next (delivered (okResponse (.words (r.lanes.toNat * r.sampleBits.toNat) ws))) ∧
      ws.length = len ∧
      ∀ w word : Nat, ws[w]? = some word → word < 2 ^ (r.lanes.toNat * r.sampleBits.toNat) ∧
        ∀ (i : Nat) (stream : List Int), r.streams[i]? = some stream → ∃ x : Int, stream[w]? = some x ∧
          word / 2 ^ (i * r.sampleBits.toNat) % 2 ^ r.sampleBits.toNat = (x % 2 ^ r.sampleBits.toNat).toNat

/-- 44_lane_mux.md rules R193, R194: a flat stream that is no whole number of words, streams that are not `N`, and streams
of unequal lengths are a `LengthMismatchError` with no result, in this and in every instance. -/
def Obligations.RaggedLanesRaiseLengthMismatch : Prop :=
  (∀ (s : State) (r : Request), s.inFlight = some r → legalLanes Config.params r →
    (r.flat.length % r.lanes.toNat ≠ 0 →
      ∃ info, exec .laneMuxSer s = .next (delivered (faulted .lengthMismatchError info))) ∧
    (¬ (r.streams.length = r.lanes.toNat ∧ ∃ len, ∀ stream ∈ r.streams, stream.length = len) →
      ∃ info, exec .laneMuxPar s = .next (delivered (faulted .lengthMismatchError info)))) ∧
  ∀ (P : Params) (r : Request), legalLanes P r →
    (r.flat.length % r.lanes.toNat ≠ 0 → ∃ info, serveLaneMuxSer P r = faulted .lengthMismatchError info) ∧
    (¬ (r.streams.length = r.lanes.toNat ∧ ∃ len, ∀ stream ∈ r.streams, stream.length = len) →
      ∃ info, serveLaneMuxPar P r = faulted .lengthMismatchError info)

/-- 44_lane_mux.md rule R195: lane packing and unpacking are inverse, in both modes and both directions. -/
def Obligations.LanePackingInverse : Prop :=
  ∀ (s : State) (r : Request), s.inFlight = some r → legalLanes Config.params r →
    (r.flat.length % r.lanes.toNat = 0 → (∀ x ∈ r.flat, 0 ≤ x ∧ x < 2 ^ r.sampleBits.toNat) →
      ∃ (width : Nat) (ws : List Nat), exec .laneMuxSer s = .next (delivered (okResponse (.words width ws))) ∧
        ∀ t : State, t.inFlight = some { r with words := ws.map fun x : Nat => (x : Int) } →
          exec .laneDemuxSer t = .next (delivered (okResponse (.flat r.sampleBits.toNat (r.flat.map Int.toNat))))) ∧
    (r.streams.length = r.lanes.toNat → (∃ len, ∀ stream ∈ r.streams, stream.length = len) →
      (∀ stream ∈ r.streams, ∀ x ∈ stream, 0 ≤ x ∧ x < 2 ^ r.sampleBits.toNat) →
      ∃ (width : Nat) (ws : List Nat), exec .laneMuxPar s = .next (delivered (okResponse (.words width ws))) ∧
        ∀ t : State, t.inFlight = some { r with words := ws.map fun x : Nat => (x : Int) } →
          exec .laneDemuxPar t = .next
              (delivered (okResponse (.streams r.sampleBits.toNat (r.streams.map (List.map Int.toNat)))))) ∧
    ((∀ x ∈ r.words, 0 ≤ x ∧ x < 2 ^ (r.lanes.toNat * r.sampleBits.toNat)) →
      (∃ (width : Nat) (out : List Nat), exec .laneDemuxSer s = .next (delivered (okResponse (.flat width out))) ∧
        ∀ t : State, t.inFlight = some { r with flat := out.map fun x : Nat => (x : Int) } →
          exec .laneMuxSer t = .next
              (delivered (okResponse (.words (r.lanes.toNat * r.sampleBits.toNat) (r.words.map Int.toNat))))) ∧
      ∃ (width : Nat) (out : List (List Nat)), exec .laneDemuxPar s = .next
          (delivered (okResponse (.streams width out))) ∧
        ∀ t : State, t.inFlight = some { r with streams := out.map (List.map fun x : Nat => (x : Int)) } →
          exec .laneMuxPar t = .next
              (delivered (okResponse (.words (r.lanes.toNat * r.sampleBits.toNat) (r.words.map Int.toNat)))))

/-- 44_lane_mux.md rule R190, 60_exceptions.md rule R214: `N < 1` is a `FormatError` whatever else is wrong; then
`sample_bits < 1`, `N > NMAX` or a lane word above `WMAX` is a `ConfigurationError` whatever the lengths are. -/
def Obligations.BadLaneLayoutRaisesInOrder : Prop :=
  ∀ (i : Instr) (s : State) (r : Request), i ∈ [.laneDemuxSer, .laneDemuxPar, .laneMuxSer, .laneMuxPar] →
    s.inFlight = some r →
    (r.lanes < 1 → ∃ info, exec i s = .next (delivered (faulted .formatError info))) ∧
    (1 ≤ r.lanes → ¬ legalLaneWidths Config.params r →
        ∃ info, exec i s = .next (delivered (faulted .configurationError info)))

/-! ### Tokens -/

/-- 43_packetizer.md rule R160: exactly the listed spellings are asserted: the native integer 1, the literals `1'b1` and
`1b1`, and the decimal, `0x` and `0b` numerals of value 1; `asserted` never fails. That no
spelling outside the list is asserted is the model's choice (log entry 12): 92_eei_decisions.md D19 leaves it open. -/
def Obligations.AssertedExactlyValueOne : Prop :=
  (∀ n : Int, asserted (.int n) = true ↔ n = 1) ∧
  ∀ cs : List Char, asserted (.text cs) = true ↔
    cs = ['1', '\'', 'b', '1'] ∨ cs = ['1', 'b', '1'] ∨
      ∃ k : Nat, cs = List.replicate k '0' ++ ['1'] ∨ cs = '0' :: 'x' :: (List.replicate k '0' ++ ['1']) ∨
        cs = '0' :: 'b' :: (List.replicate k '0' ++ ['1'])

/-- 30_encoding.md rule R66: a native integer is itself, and the base-16 text of a number is read back as that number.
That the letters are lower-case is the model's choice (log entry 12). -/
def Obligations.RawTokenReadsBaseSixteen : Prop :=
  ∀ n : Nat, rawOfToken (.int n) = some n ∧ rawOfToken (.text (Nat.toDigits 16 n)) = some n
end

