-- ==== Sys2Proof/Laws/State.lean ====
section
/-!
SUPPORT. One lemma per field per update of State and of the request's descriptor.
-/

namespace Sys2Proof.Machine

@[simp] theorem served_inFlight (x : Response) (s : State) : (served x s).inFlight = none := rfl
@[simp] theorem served_response (x : Response) (s : State) : (served x s).response = some x := rfl
theorem served_eq_delivered (x : Response) (s : State) : served x s = delivered x := rfl

@[simp] theorem delivered_inFlight (x : Response) : (delivered x).inFlight = none := rfl
@[simp] theorem delivered_response (x : Response) : (delivered x).response = some x := rfl

@[simp] theorem reset_inFlight : State.reset.inFlight = none := rfl
@[simp] theorem reset_response : State.reset.response = none := rfl
@[simp] theorem assertReset_eq (s : State) : assertReset s = State.reset := rfl

@[simp] theorem putDescriptor_inFlight (d : Descriptor) (s : State) :
    (putDescriptor d s).inFlight = some { s.inFlight.getD Request.blank with opd := d } := rfl
@[simp] theorem putDescriptor_response (d : Descriptor) (s : State) : (putDescriptor d s).response = s.response := rfl

@[simp] theorem okResponse_status (x : Result) : (okResponse x).status = .ok := rfl
@[simp] theorem okResponse_result (x : Result) : (okResponse x).result = some x := rfl
@[simp] theorem okResponse_info (x : Result) : (okResponse x).info = none := rfl
@[simp] theorem faultResponse_status (x : Raise) : (faultResponse x).status = x.status := rfl
@[simp] theorem faultResponse_result (x : Raise) : (faultResponse x).result = none := rfl
@[simp] theorem faultResponse_info (x : Raise) : (faultResponse x).info = some x.info := rfl
theorem faultResponse_eq_faulted (x : Raise) : faultResponse x = faulted x.status x.info := rfl

theorem present_of_idle {r : Request} {s : State} (h : s.inFlight = none) :
    present r s = some { s with inFlight := some r } := by
  simp [present, h]

theorem present_of_busy {r q : Request} {s : State} (h : s.inFlight = some q) : present r s = none := by
  simp [present, h]

@[simp] theorem descriptorInFlight_of_request {r : Request} {s : State} (h : s.inFlight = some r) :
    descriptorInFlight s = some r.opd := by
  simp [descriptorInFlight, h]

@[simp] theorem descriptorInFlight_of_idle {s : State} (h : s.inFlight = none) : descriptorInFlight s = none := by
  simp [descriptorInFlight, h]

end Sys2Proof.Machine
end

