-- ==== Sys2Proof/Laws/Ops.lean ====
section
/-!
SUPPORT. What the shared operations can do, said once: serving a request, answering it, the first failing check, and the
checks of each family.
-/

namespace Sys2Proof.Machine

/-- All that `serve` can do with a request in flight. -/
theorem serve_of_request {f : Params → Request → Response} {r : Request} {s : State} (h : s.inFlight = some r) :
    serve f s = .next (delivered (f Config.params r)) := by
  simp [serve, h, served_eq_delivered]

/-- If `serve` answers a next state, a request was in flight and its response is delivered. -/
theorem serve_next {f : Params → Request → Response} {s t : State} (h : serve f s = .next t) :
    ∃ r, s.inFlight = some r ∧ t = delivered (f Config.params r) := by
  cases hr : s.inFlight with
  | none => simp [serve, hr] at h
  | some r => exact ⟨r, rfl, by rw [serve_of_request hr] at h; exact (Host.Outcome.next.inj h).symm⟩

theorem serve_congr {f : Params → Request → Response} {s t : State} (h : s.inFlight = t.inFlight) :
    serve f s = serve f t := by
  unfold serve; rw [h]; cases t.inFlight <;> rfl

@[simp] theorem failIf_false (st : Status) (n : OperandName) : failIf false st n = none := rfl
@[simp] theorem failIf_true (st : Status) (n : OperandName) : failIf true st n = some ⟨st, .operand n⟩ := rfl

theorem failIf_eq_none {b : Bool} {st : Status} {n : OperandName} : failIf b st n = none ↔ b = false := by
  cases b <;> simp

theorem failIf_eq_some {b : Bool} {st : Status} {n : OperandName} {x : Raise} (h : failIf b st n = some x) :
    b = true ∧ x = ⟨st, .operand n⟩ := by
  cases b <;> simp_all

@[simp] theorem firstFailure_nil : firstFailure [] = none := rfl
@[simp] theorem firstFailure_some (x : Raise) (l : List (Option Raise)) : firstFailure (some x :: l) = some x := rfl
@[simp] theorem firstFailure_none (l : List (Option Raise)) : firstFailure (none :: l) = firstFailure l := rfl

/-- No check fails iff each one passes. -/
theorem firstFailure_eq_none {l : List (Option Raise)} : firstFailure l = none ↔ ∀ c ∈ l, c = none := by
  induction l with
  | nil => simp
  | cons c l ih => cases c <;> simp [ih]

/-- The first failure is one of the checks'. -/
theorem firstFailure_mem {l : List (Option Raise)} {x : Raise} (h : firstFailure l = some x) : some x ∈ l := by
  induction l with
  | nil => simp at h
  | cons c l ih =>
    cases c with
    | none => exact List.mem_cons_of_mem _ (ih h)
    | some y => simp at h; simp [h]

theorem firstFailure_append (l m : List (Option Raise)) :
    firstFailure (l ++ m) = (firstFailure l).or (firstFailure m) := by
  induction l with
  | nil => simp
  | cons c l ih => cases c <;> simp [ih]

/-- All that `answer` can do: the whole result, or one of the checks' faults and no result. -/
theorem answer_cases (l : List (Option Raise)) (x : Result) :
    ((∀ c ∈ l, c = none) ∧ answer l x = okResponse x) ∨ ∃ e, some e ∈ l ∧ answer l x = faultResponse e := by
  cases h : firstFailure l with
  | none => exact .inl ⟨firstFailure_eq_none.1 h, by simp [answer, h]⟩
  | some e => exact .inr ⟨e, firstFailure_mem h, by simp [answer, h]⟩

theorem answer_ok {l : List (Option Raise)} {x : Result} (h : ∀ c ∈ l, c = none) : answer l x = okResponse x := by
  simp [answer, firstFailure_eq_none.2 h]

/-- When a prefix of the checks has a failure, its first failure is the answer. -/
theorem answer_fault {l : List (Option Raise)} {e : Raise} (h : firstFailure l = some e) (m : List (Option Raise))
    (x : Result) : answer (l ++ m) x = faultResponse e := by
  simp [answer, firstFailure_append, h]

theorem exceeds_eq_false {m : Maximum} {x : Nat} : exceeds m x = false ↔ withinMax m x := by
  unfold exceeds withinMax
  cases h : m.above with
  | none => simp
  | some a => simp; omega

/-- A list of checks that all raise one status: it passes, or its first failure has that status. -/
theorem firstFailure_status {l : List (Option Raise)} {st : Status} (hl : ∀ x, some x ∈ l → x.status = st)
    (h : ¬ ∀ c ∈ l, c = none) : ∃ info, firstFailure l = some ⟨st, info⟩ := by
  cases hf : firstFailure l with
  | none => exact absurd (firstFailure_eq_none.1 hf) h
  | some x =>
    have := hl x (firstFailure_mem hf)
    exact ⟨x.info, by rw [← this]⟩

/-- The format check passes exactly on the legal formats (rule R89). -/
theorem checkFixedFormat_passes {P : Params} {c : Bool} {r : Request} :
    (∀ x ∈ checkFixedFormat P c r, x = none) ↔ legalFormat P (if c then 2 else 1) r := by
  have ht : r.signBits + r.intBits + r.fracBits = totalBits r := rfl
  cases c <;>
    simp [checkFixedFormat, failIf_eq_none, exceeds_eq_false, legalFormat, formatWidth, ht,
      Decidable.or_iff_not_imp_left (a := r.signBits = 0)]

theorem checkFixedFormat_status {P : Params} {c : Bool} {r : Request} {x : Raise}
    (h : some x ∈ checkFixedFormat P c r) : x.status = .configurationError := by
  simp only [checkFixedFormat, List.mem_cons, List.not_mem_nil, or_false] at h
  rcases h with h | h | h | h | h <;> rw [(failIf_eq_some h.symm).2]

theorem checkFixedFormat_fails {P : Params} {c : Bool} {r : Request} (h : ¬ legalFormat P (if c then 2 else 1) r) :
    ∃ info, firstFailure (checkFixedFormat P c r) = some ⟨.configurationError, info⟩ :=
  firstFailure_status (fun _ => checkFixedFormat_status) (mt checkFixedFormat_passes.1 h)

/-- The code check passes exactly on the codes in range (rule R95). -/
theorem checkCode_eq_none {r : Request} {c : Int} {n : OperandName} :
    checkCode r c n = none ↔ codeInRange r c := by
  unfold checkCode codeInRange minCode maxCode codeLo codeHi isSigned magnitudeBits
  rw [failIf_eq_none]
  by_cases h : r.signBits = 1 <;> simp [h]

theorem checkCode_status {r : Request} {c : Int} {n : OperandName} {x : Raise} (h : checkCode r c n = some x) :
    x.status = .configurationError := by
  rw [(failIf_eq_some h).2]

/-- The width check passes exactly on the legal widths (rule R140). -/
theorem checkWidths_passes {P : Params} {r : Request} :
    (∀ x ∈ checkWidths P r, x = none) ↔ legalWidths P r := by
  simp [checkWidths, failIf_eq_none, exceeds_eq_false, legalWidths]

theorem checkWidths_status {P : Params} {r : Request} {x : Raise} (h : some x ∈ checkWidths P r) :
    x.status = .configurationError := by
  simp only [checkWidths, List.mem_cons, List.not_mem_nil, or_false] at h
  rcases h with h | h | h | h <;> rw [(failIf_eq_some h.symm).2]

/-- The layout check passes exactly on the legal layouts (rule R190). -/
theorem checkLaneLayout_passes {P : Params} {r : Request} :
    (∀ x ∈ checkLaneLayout P r, x = none) ↔ legalLanes P r := by
  simp [checkLaneLayout, failIf_eq_none, exceeds_eq_false, legalLanes, legalLaneWidths]

theorem checkLaneLayout_status {P : Params} {r : Request} {x : Raise} (h : some x ∈ checkLaneLayout P r) :
    x.status = .formatError ∨ x.status = .configurationError := by
  simp only [checkLaneLayout, List.mem_cons, List.not_mem_nil, or_false] at h
  rcases h with h | h | h | h <;> rw [(failIf_eq_some h.symm).2] <;> simp

@[simp] theorem supplied_true (sig : List Bool) : supplied true sig = some sig := rfl
@[simp] theorem supplied_false (sig : List Bool) : supplied false sig = none := rfl

theorem checkLength_eq_none {n : Nat} {sig : Option (List Bool)} {name : OperandName} :
    checkLength n sig name = none ↔ ∀ bits, sig = some bits → bits.length = n := by
  cases sig with
  | none => simp [checkLength]
  | some bits => simp [checkLength, failIf_eq_none]

theorem checkLength_status {n : Nat} {sig : Option (List Bool)} {name : OperandName} {x : Raise}
    (h : checkLength n sig name = some x) : x.status = .lengthMismatchError := by
  cases sig with
  | none => simp [checkLength] at h
  | some bits => rw [(failIf_eq_some h).2]

/-- The Packetizer's checks pass exactly when `n` is at most `LENMAX` and every supplied signal has length `n`
(rule R161). -/
theorem checkPackets_passes {P : Params} {n : Nat} {valid sop eop : Option (List Bool)} :
    (∀ x ∈ checkPackets P n valid sop eop, x = none) ↔
      withinMax (lenmaxOf P) n ∧ signalsFit n [valid, sop, eop] := by
  simp only [checkPackets, List.mem_cons, List.not_mem_nil, or_false, forall_eq_or_imp, forall_eq, failIf_eq_none,
    exceeds_eq_false, checkLength_eq_none, signalsFit]
  constructor
  · rintro ⟨h, h1, h2, h3⟩
    exact ⟨h, fun bits hb => by rcases hb with hb | hb | hb <;> [exact h1 _ hb.symm; exact h2 _ hb.symm; exact h3 _ hb.symm]⟩
  · rintro ⟨h, h'⟩
    exact ⟨h, fun b hb => h' b (by simp [hb]), fun b hb => h' b (by simp [hb]), fun b hb => h' b (by simp [hb])⟩

theorem checkPackets_status {P : Params} {n : Nat} {valid sop eop : Option (List Bool)} {x : Raise}
    (h : some x ∈ checkPackets P n valid sop eop) :
    x.status = .configurationError ∨ x.status = .lengthMismatchError := by
  simp only [checkPackets, List.mem_cons, List.not_mem_nil, or_false] at h
  rcases h with h | h | h | h
  · rw [(failIf_eq_some h.symm).2]; simp
  all_goals exact .inr (checkLength_status h.symm)

end Sys2Proof.Machine
end

