-- ==== Sys2Proof/Laws/Operands.lean ====
section
/-!
SUPPORT. The laws of the notation of 00_scope.md rule R8 and of the rounding functions.
-/

namespace Sys2Proof.Machine

/-! ### Patterns and their readings -/

theorem tc_cast (w : Nat) (v : Int) : (tc w v : Int) = v % 2 ^ w := by
  have h : (0 : Int) < 2 ^ w := by positivity
  simp [tc, Int.emod_nonneg _ h.ne']

theorem tc_eq (w : Nat) (v : Int) : tc w v = (v % 2 ^ w).toNat := by simp [tc]

theorem tc_lt (w : Nat) (v : Int) : tc w v < 2 ^ w := by
  have h : (0 : Int) < 2 ^ w := by positivity
  have := tc_cast w v
  have := Int.emod_lt_of_pos v h
  zify; omega

/-- A pattern depends on its operand modulo `2^W` only (10_state.md rule R29). -/
theorem tc_congr {w : Nat} {v v' : Int} (h : v % 2 ^ w = v' % 2 ^ w) : tc w v = tc w v' := by
  simp [tc_eq, h]

theorem tc_natCast_of_lt {w p : Nat} (h : p < 2 ^ w) : tc w p = p := by
  zify; rw [tc_cast]; exact Int.emod_eq_of_lt (by positivity) (by exact_mod_cast h)

theorem tc_natCast (w p : Nat) : tc w (p : Int) = p % 2 ^ w := by
  zify; exact tc_cast w p

theorem bit_le_one (p k : Nat) : bit p k = 0 ∨ bit p k = 1 := by unfold bit; omega

/-- The top bit of a `W`-bit pattern is its upper half. -/
theorem topBit_eq_one {w p : Nat} (hw : 1 ≤ w) (hp : p < 2 ^ w) : bit p (w - 1) = 1 ↔ 2 ^ (w - 1) ≤ p := by
  obtain ⟨k, rfl⟩ := Nat.exists_eq_add_of_le' hw
  have h2 : (0 : Nat) < 2 ^ k := by positivity
  simp only [bit, Nat.add_sub_cancel, pow_succ] at *
  have : p / 2 ^ k < 2 := by rw [Nat.div_lt_iff_lt_mul h2]; omega
  have h3 : 1 ≤ p / 2 ^ k ↔ 2 ^ k ≤ p := by rw [Nat.le_div_iff_mul_le h2]; simp
  generalize p / 2 ^ k = q at *
  omega

theorem topBit_eq_zero {w p : Nat} (hw : 1 ≤ w) (hp : p < 2 ^ w) : bit p (w - 1) = 0 ↔ p < 2 ^ (w - 1) := by
  have := topBit_eq_one hw hp
  have := bit_le_one p (w - 1)
  omega

theorem two_pow_pred {w : Nat} (hw : 1 ≤ w) : (2 : Int) ^ w = 2 * 2 ^ (w - 1) := by
  obtain ⟨k, rfl⟩ := Nat.exists_eq_add_of_le' hw
  simp [pow_succ, mul_comm]

/-- The balanced remainder, by the half its natural remainder lies in. -/
theorem bmod_two_pow {w : Nat} (hw : 1 ≤ w) (v : Int) :
    Int.bmod v (2 ^ w) = if v % 2 ^ w < 2 ^ (w - 1) then v % 2 ^ w else v % 2 ^ w - 2 ^ w := by
  have h := two_pow_pred hw
  simp only [Int.bmod, Nat.cast_pow, Nat.cast_ofNat]
  have : ((2 : Int) ^ w + 1) / 2 = 2 ^ (w - 1) := by omega
  rw [this]

theorem bmod_two_pow_bounds {w : Nat} (hw : 1 ≤ w) (v : Int) :
    -2 ^ (w - 1) ≤ Int.bmod v (2 ^ w) ∧ Int.bmod v (2 ^ w) < 2 ^ (w - 1) := by
  have h := two_pow_pred hw
  have h0 : (0 : Int) < 2 ^ w := by positivity
  have := Int.emod_lt_of_pos v h0
  have := Int.emod_nonneg v h0.ne'
  rw [bmod_two_pow hw]; split <;> omega

/-- A number that already lies in the signed range is its own balanced remainder. -/
theorem bmod_two_pow_of_mem {w : Nat} (hw : 1 ≤ w) {v : Int} (h1 : -2 ^ (w - 1) ≤ v) (h2 : v < 2 ^ (w - 1)) :
    Int.bmod v (2 ^ w) = v := by
  have h := two_pow_pred hw
  have h0 : (0 : Int) < 2 ^ (w - 1) := by positivity
  rw [bmod_two_pow hw]
  rcases lt_or_ge v 0 with hv | hv
  · have : v % 2 ^ w = v + 2 ^ w := by
      rw [← Int.add_emod_right, Int.emod_eq_of_lt] <;> omega
    rw [this]; split <;> omega
  · rw [Int.emod_eq_of_lt hv (by omega)]; split <;> omega

/-- `sint_W(tc_W(v))` is the balanced remainder of `v` (42_requantizer.md rule R149). -/
theorem sint_tc {w : Nat} (hw : 1 ≤ w) (v : Int) : sint w (tc w v) = Int.bmod v (2 ^ w) := by
  have h := tc_cast w v
  have hb := topBit_eq_one hw (tc_lt w v)
  have hc : ((2 ^ (w - 1) : Nat) : Int) = 2 ^ (w - 1) := by push_cast; rfl
  rw [bmod_two_pow hw, sint, ← h]
  simp only [hb]
  split <;> split <;> push_cast <;> omega

theorem sint_eq_bmod {w p : Nat} (hw : 1 ≤ w) (hp : p < 2 ^ w) : sint w p = Int.bmod p (2 ^ w) := by
  rw [← sint_tc hw, tc_natCast_of_lt hp]

/-- The signed reading of a pattern, as a case distinction on its upper half. -/
theorem sint_eq_ite {w p : Nat} (hw : 1 ≤ w) (hp : p < 2 ^ w) :
    sint w p = if p < 2 ^ (w - 1) then (p : Int) else p - 2 ^ w := by
  have hb := topBit_eq_one hw hp
  unfold sint
  simp only [hb]
  split <;> split <;> first | omega | (push_cast; rfl)

/-- Writing the signed reading of a pattern at the same width gives the pattern back. -/
theorem tc_bmod (w n : Nat) (v : Int) (h : n ≤ w) : tc n (Int.bmod v (2 ^ w)) = tc n v := by
  apply tc_congr
  obtain ⟨k, rfl⟩ := Nat.exists_eq_add_of_le h
  have : ((2 : Int) ^ n) ∣ ((2 ^ (n + k) : Nat) : Int) := ⟨2 ^ k, by push_cast; ring⟩
  rw [Int.emod_emod_of_dvd _ this |>.symm, Int.bmod_emod, Int.emod_emod_of_dvd _ this]

theorem slice_zero (p hi : Nat) : slice p hi 0 = p % 2 ^ (hi + 1) := by simp [slice]

theorem mask_and (p w : Nat) : p &&& mask w = p % 2 ^ w := Nat.and_two_pow_sub_one_eq_mod p w

theorem shiftRight_mask (p lo w : Nat) : (p >>> lo) &&& mask w = p / 2 ^ lo % 2 ^ w := by
  rw [mask_and, Nat.shiftRight_eq_div_pow]

/-- A field of a width-`W` operand that lies below `W` depends on the operand itself. -/
theorem tc_field {w lo n : Nat} (h : lo + n ≤ w) (v : Int) : tc w v / 2 ^ lo % 2 ^ n = tc n (v / 2 ^ lo) := by
  zify
  rw [tc_cast, tc_cast]
  obtain ⟨k, rfl⟩ := Nat.exists_eq_add_of_le h
  have e : (2 : Int) ^ (lo + n + k) = 2 ^ lo * 2 ^ (n + k) := by rw [add_assoc, pow_add]
  have h0 : (0 : Int) < 2 ^ lo := by positivity
  have e' : v % (2 ^ lo * 2 ^ (n + k)) = v + 2 ^ lo * (2 ^ n * -(2 ^ k * (v / (2 ^ lo * 2 ^ (n + k))))) := by
    rw [Int.emod_def, pow_add]; ring
  rw [e, e', Int.add_mul_ediv_left _ _ h0.ne', Int.add_mul_emod_self_left]

/-! ### Clamping and rounding -/

theorem clamp_eq {lo hi : Int} (h : lo ≤ hi) (v : Int) : clamp lo hi v = max lo (min hi v) := by
  unfold clamp; split <;> [skip; split] <;> omega

/-- `rnd` gives a nearest integer, the one `ENC_TIE` names at a tie (40_bitfield_codec.md rule R93). -/
theorem rnd_nearest (tie : TieRule) (q : Rat) : nearestInt tie q (rnd tie q) := by
  have h1 : (⌊q⌋ : Rat) ≤ q := Int.floor_le q
  have h2 : q < ⌊q⌋ + 1 := Int.lt_floor_add_one q
  unfold rnd nearestInt
  split
  · left; rw [abs_of_nonneg] <;> linarith
  · split
    · left; push_cast; rw [abs_of_neg] <;> linarith
    · right
      refine ⟨⌊q⌋, by linarith, ?_⟩
      cases tie <;> simp [tieValue, Int.even_iff]

/-- A nearest integer is at most 1/2 away. -/
theorem nearestInt_abs_le {tie : TieRule} {q : Rat} {k : Int} (h : nearestInt tie q k) : |q - k| ≤ 1 / 2 := by
  rcases h with h | ⟨j, rfl, hk⟩
  · exact h.le
  · have : k = j ∨ k = j + 1 := by
      cases tie <;> simp only at hk
      · exact .inr hk
      · split at hk <;> simp [hk]
      · split at hk <;> simp [hk]
    rcases this with rfl | rfl <;> rw [abs_le] <;> push_cast <;> constructor <;> linarith

theorem hdlRound_eq_iff (q : Rat) (k : Int) : hdlRound q = k ↔ (k : Rat) - 1 / 2 ≤ q ∧ q < k + 1 / 2 := by
  unfold hdlRound
  rw [Int.floor_eq_iff]
  constructor <;> rintro ⟨h1, h2⟩ <;> constructor <;> linarith

end Sys2Proof.Machine
end

