-- ==== Sys2Proof/Laws/Codec.lean ====
section
/-!
SUPPORT. The reading of fixed-point words and the building of packed ones, in closed form.
-/

namespace Sys2Proof.Machine

/-- A word is read as its balanced remainder when the format is signed, as its remainder when not (rule R90). -/
theorem decodeCode_eq {signed : Bool} {T : Nat} (hT : 1 ≤ T) (raw : Int) :
    decodeCode signed T raw = if signed then Int.bmod raw (2 ^ T) else raw % 2 ^ T := by
  cases signed with
  | false => simp [decodeCode, tc_cast]
  | true =>
    have h := sint_tc hT raw
    unfold sint at h
    simp only [decodeCode, Bool.true_and, decide_eq_true_eq, if_true]
    exact h

theorem decodeCode_congr {signed : Bool} {T : Nat} {v v' : Int} (h : v % 2 ^ T = v' % 2 ^ T) :
    decodeCode signed T v = decodeCode signed T v' := by
  simp [decodeCode, tc_congr h]

theorem decodeFixed_congr {signed : Bool} {T f : Nat} {v v' : Int} (h : v % 2 ^ T = v' % 2 ^ T) :
    decodeFixed signed T f v = decodeFixed signed T f v' := by
  simp [decodeFixed, decodeCode_congr h]

/-- A legal format's code, as the claims read it. -/
theorem decodeCode_readCode {P : Params} {parts : Nat} {r : Request} (h : legalFormat P parts r) (w : Int) :
    decodeCode (isSigned r) (formatWidth r) w = readCode r w := by
  have hT : 1 ≤ formatWidth r := by have := h.2.2.2.1; unfold formatWidth totalBits; omega
  rw [decodeCode_eq hT]
  by_cases hs : r.signBits = 1 <;> simp [readCode, isSigned, hs, formatWidth, totalBits]

theorem decodeFixed_readCode {P : Params} {parts : Nat} {r : Request} (h : legalFormat P parts r) (f : Nat) (w : Int) :
    decodeFixed (isSigned r) (formatWidth r) f w = (readCode r w : Rat) / 2 ^ f := by
  simp [decodeFixed, decodeCode_readCode h]

/-- The low half of a complex word is the word itself, modulo `2^T` (rule R92). -/
theorem complexLow_eq {T : Nat} (hT : 1 ≤ T) (raw : Int) : slice (tc (2 * T) raw) (T - 1) 0 = tc T raw := by
  have := tc_field (w := 2 * T) (lo := 0) (n := T) (by omega) raw
  simpa [slice, Nat.sub_add_cancel hT] using this

/-- The high half of a complex word is the word shifted down by `T`, modulo `2^T` (rule R92). -/
theorem complexHigh_eq {T : Nat} (hT : 1 ≤ T) (raw : Int) :
    slice (tc (2 * T) raw) (2 * T - 1) T = tc T (raw / 2 ^ T) := by
  have h : 2 * T - 1 - T + 1 = T := by omega
  simpa [slice, h] using tc_field (w := 2 * T) (lo := T) (n := T) (by omega) raw

/-- Concatenation by shift and or is concatenation by sum. -/
theorem shift_or_eq_add {a b w : Nat} (h : b < 2 ^ w) : a <<< w ||| b = a * 2 ^ w + b := by
  rw [Nat.shiftLeft_eq, ← Nat.mul_comm, Nat.two_pow_add_eq_or_of_lt h]

/-- The packed complex word: the imaginary pattern above the real one (rule R97). -/
theorem packComplex_eq (T : Nat) (re im : Int) : packComplex T re im = tc T im * 2 ^ T + tc T re :=
  shift_or_eq_add (tc_lt T re)

theorem packComplex_lt (T : Nat) (re im : Int) : packComplex T re im < 2 ^ (2 * T) := by
  rw [packComplex_eq, two_mul, pow_add]
  have h1 := tc_lt T re
  have h2 := tc_lt T im
  nlinarith

end Sys2Proof.Machine
end

