-- ==== Sys2Proof/Laws/Lanes.lean ====
section
/-!
SUPPORT. What extracting and packing lanes does, said once.
-/

namespace Sys2Proof.Machine

theorem laneOf_eq (sb word i : Nat) : laneOf sb word i = word / 2 ^ (i * sb) % 2 ^ sb := shiftRight_mask _ _ _

theorem laneOf_lt (sb word i : Nat) : laneOf sb word i < 2 ^ sb := by
  rw [laneOf_eq]; exact Nat.mod_lt _ (by positivity)

/-- A lane of a wide word, from the word itself (rule R191, 10_state.md rule R29). -/
theorem laneOf_tc {n sb i : Nat} (h : i < n) (word : Int) :
    laneOf sb (tc (n * sb) word) i = (word / 2 ^ (i * sb) % 2 ^ sb).toNat := by
  rw [laneOf_eq, tc_field (by nlinarith [Nat.mul_le_mul_right sb (Nat.succ_le_of_lt h)]), tc_eq]

/-- Packing one more lane adds it above the others. -/
theorem packLanes_succ (n sb : Nat) (lane : Nat → Int) :
    packLanes (n + 1) sb lane = packLanes n sb lane ||| (tc sb (lane n) <<< (n * sb)) := by
  simp [packLanes, List.range_succ, List.foldl_append]

theorem packLanes_lt (n sb : Nat) (lane : Nat → Int) : packLanes n sb lane < 2 ^ (n * sb) := by
  induction n with
  | zero => simp [packLanes]
  | succ n ih =>
    rw [packLanes_succ]
    refine Nat.or_lt_two_pow (lt_of_lt_of_le ih (Nat.pow_le_pow_right (by norm_num) (by nlinarith))) ?_
    rw [Nat.shiftLeft_eq, add_mul, one_mul, pow_add, mul_comm]
    exact (Nat.mul_lt_mul_left (by positivity)).2 (tc_lt _ _)

theorem packLanes_succ_eq (n sb : Nat) (lane : Nat → Int) :
    packLanes (n + 1) sb lane = tc sb (lane n) * 2 ^ (n * sb) + packLanes n sb lane := by
  rw [packLanes_succ, Nat.or_comm, Nat.shiftLeft_eq, ← Nat.mul_comm, Nat.two_pow_add_eq_or_of_lt (packLanes_lt n sb lane)]

/-- Each lane of a packed word is the lane value packed there (rule R193). -/
theorem laneOf_packLanes {n sb i : Nat} (lane : Nat → Int) (h : i < n) :
    packLanes n sb lane / 2 ^ (i * sb) % 2 ^ sb = tc sb (lane i) := by
  induction n with
  | zero => omega
  | succ n ih =>
    rw [packLanes_succ_eq]
    rcases Nat.lt_succ_iff_lt_or_eq.1 h with hi | rfl
    · obtain ⟨k, rfl⟩ := Nat.exists_eq_add_of_lt hi
      have e : 2 ^ ((i + k + 1) * sb) = 2 ^ (i * sb) * (2 ^ sb * 2 ^ (k * sb)) := by rw [← pow_add, ← pow_add]; ring_nf
      rw [e, ← ih hi, mul_comm, mul_assoc, Nat.mul_add_div (by positivity), mul_assoc, Nat.mul_add_mod]
    · rw [mul_comm, Nat.mul_add_div (by positivity), Nat.div_eq_of_lt (packLanes_lt i sb lane), add_zero,
        Nat.mod_eq_of_lt (tc_lt _ _)]

/-- A word is determined by its lanes. -/
theorem eq_of_lanes_eq {n sb a b : Nat} (ha : a < 2 ^ (n * sb)) (hb : b < 2 ^ (n * sb))
    (h : ∀ i, i < n → a / 2 ^ (i * sb) % 2 ^ sb = b / 2 ^ (i * sb) % 2 ^ sb) : a = b := by
  induction n generalizing a b with
  | zero => simp at ha hb; omega
  | succ n ih =>
    have h0 := h 0 (by omega)
    simp only [zero_mul, pow_zero, Nat.div_one] at h0
    have e : (n + 1) * sb = sb + n * sb := by ring
    rw [e, pow_add] at ha hb
    have hq : a / 2 ^ sb = b / 2 ^ sb := by
      refine ih (Nat.div_lt_of_lt_mul ha) (Nat.div_lt_of_lt_mul hb) fun i hi => ?_
      have := h (i + 1) (by omega)
      rwa [add_mul, one_mul, add_comm, pow_add, ← Nat.div_div_eq_div_mul, ← Nat.div_div_eq_div_mul] at this
    rw [← Nat.div_add_mod a (2 ^ sb), ← Nat.div_add_mod b (2 ^ sb), h0, hq]

end Sys2Proof.Machine
end

