-- ==== Sys2Proof/Laws/Packetizer.lean ====
section
/-!
SUPPORT. What the scans, the range computation and the filters do, said once.
-/

namespace Sys2Proof.Machine

theorem assertedAt_iff {sig : List Bool} {k : Nat} : assertedAt sig k = true ↔ assertedIn sig k := by
  unfold assertedAt assertedIn
  rw [List.getD_eq_getElem?_getD]
  cases sig[k]? <;> simp

/-- All that the forward scan can answer. -/
theorem scanFrom_spec (sig : List Bool) (fuel k : Nat) :
    match scanFrom sig fuel k with
    | some j => k ≤ j ∧ j < k + fuel ∧ assertedIn sig j ∧ ∀ l, k ≤ l → l < j → ¬ assertedIn sig l
    | none => ∀ l, k ≤ l → l < k + fuel → ¬ assertedIn sig l := by
  induction fuel generalizing k with
  | zero => simp [scanFrom]; omega
  | succ fuel ih =>
    unfold scanFrom
    by_cases h : assertedAt sig k = true
    · simp only [h, if_true]
      exact ⟨le_refl _, by omega, assertedAt_iff.1 h, by omega⟩
    · simp only [h, if_false, Bool.false_eq_true]
      have hk : ¬ assertedIn sig k := fun h' => h (assertedAt_iff.2 h')
      have := ih (k + 1)
      cases hs : scanFrom sig fuel (k + 1) with
      | none =>
        simp only [hs] at this ⊢
        intro l h1 h2
        rcases Nat.eq_or_lt_of_le h1 with rfl | h1
        · exact hk
        · exact this l h1 (by omega)
      | some j =>
        simp only [hs] at this ⊢
        refine ⟨by omega, by omega, this.2.2.1, fun l h1 h2 => ?_⟩
        rcases Nat.eq_or_lt_of_le h1 with rfl | h1
        · exact hk
        · exact this.2.2.2 l h1 h2

theorem findFrom_some {sig : List Bool} {n start k : Nat} (h : findFrom sig n start = some k) :
    start ≤ k ∧ k < n ∧ assertedIn sig k ∧ ∀ j, start ≤ j → j < k → ¬ assertedIn sig j := by
  have := scanFrom_spec sig (n - start) start
  unfold findFrom at h
  rw [h] at this
  exact ⟨this.1, by omega, this.2.2⟩

theorem findFrom_none {sig : List Bool} {n start : Nat} (h : findFrom sig n start = none) :
    ∀ j, start ≤ j → j < n → ¬ assertedIn sig j := by
  have := scanFrom_spec sig (n - start) start
  unfold findFrom at h
  rw [h] at this
  exact fun j h1 h2 => this j h1 (by omega)

/-- Step 1 of rule R162. -/
theorem packetStart_some {sop : Option (List Bool)} {n i k : Nat} (h : packetStart sop n i = some k) :
    startsAt sop n i k := by
  cases sop with
  | none => exact (Option.some.inj h).symm
  | some sig => exact findFrom_some h

theorem packetStart_none {sop : Option (List Bool)} {n i : Nat} (h : packetStart sop n i = none) (k : Nat) :
    ¬ startsAt sop n i k := by
  cases sop with
  | none => simp [packetStart] at h
  | some sig => exact fun ⟨h1, h2, h3, _⟩ => findFrom_none h k h1 h2 h3

/-- A packet start lies at or after the index it is sought from, inside the data. -/
theorem startsAt_bounds {sop : Option (List Bool)} {n i k : Nat} (h : startsAt sop n i k) (hi : i < n) :
    i ≤ k ∧ k < n := by
  cases sop with
  | none => simp only [startsAt] at h; omega
  | some sig => exact ⟨h.1, h.2.1⟩

/-- Step 2 of rule R162. -/
theorem packetStop_spec (eop : Option (List Bool)) (n start : Nat) :
    stopsAt eop n start (packetStop eop n start) := by
  cases eop with
  | none => rfl
  | some sig =>
    cases h : findFrom sig n start with
    | none => right; exact ⟨by simp [packetStop, h], findFrom_none h⟩
    | some k => left; exact ⟨k, by simp [packetStop, h], findFrom_some h⟩

/-- A packet stop lies after its start and not after the data. -/
theorem stopsAt_bounds {eop : Option (List Bool)} {n start stop : Nat} (h : stopsAt eop n start stop)
    (hs : start < n) : start < stop ∧ stop ≤ n := by
  cases eop with
  | none => simp only [stopsAt] at h; omega
  | some sig => rcases h with ⟨k, rfl, h1, h2, _⟩ | ⟨rfl, _⟩ <;> omega

/-- The guard of step 3 of rule R162 never fires. -/
theorem guardStop_eq {start stop : Nat} (h : start < stop) : guardStop start stop = stop := by
  simp [guardStop, Nat.not_le.2 h]

/-- The loop emits, after what it had, the ranges found from its index on (rule R162). -/
theorem packetLoop_spec (sop eop : Option (List Bool)) (n fuel : Nat) (st : Scan) (h : n ≤ st.i + fuel) :
    ∃ rs, (packetLoop sop eop n fuel st).out = st.out ++ rs ∧ packetChain sop eop n st.i rs := by
  induction fuel generalizing st with
  | zero => exact ⟨[], by simp [packetLoop], .inl (by omega)⟩
  | succ fuel ih =>
    unfold packetLoop
    by_cases hi : st.i < n
    · simp only [hi, if_true]
      cases hs : packetStart sop n st.i with
      | none => exact ⟨[], by simp, .inr (packetStart_none hs)⟩
      | some start =>
        have hst := packetStart_some hs
        obtain ⟨hb1, hb2⟩ := startsAt_bounds hst hi
        have hsp := packetStop_spec eop n start
        obtain ⟨hc1, hc2⟩ := stopsAt_bounds hsp hb2
        have hg := guardStop_eq hc1
        by_cases hn : (sop.isNone && eop.isNone) = true
        · simp only [hn, if_true]
          refine ⟨[⟨start, packetStop eop n start⟩], by simp [emitPacket, hg], hi, hst, hsp, .inl ?_⟩
          cases eop with
          | none => simp [packetStop]
          | some sig => simp at hn
        · simp only [hn, if_false, Bool.false_eq_true]
          obtain ⟨rs, h1, h2⟩ := ih (emitPacket eop n start st) (by simp only [emitPacket, hg]; omega)
          simp only [emitPacket, hg] at h1 h2
          exact ⟨⟨start, packetStop eop n start⟩ :: rs, by simp only [emitPacket, hg]; rw [h1]; simp, hi, hst, hsp, h2⟩
    · simp only [hi, if_false]
      exact ⟨[], by simp, .inl (by omega)⟩

/-- All that the range computation can answer (rule R162). -/
theorem packetRanges_chain (n : Nat) (sop eop : Option (List Bool)) :
    packetChain sop eop n 0 (packetRanges n sop eop) := by
  obtain ⟨rs, h1, h2⟩ := packetLoop_spec sop eop n n { i := 0, start := 0, stop := 0, out := [] } (by simp)
  unfold packetRanges
  rw [h1]
  exact h2

/-- Ranges found from `i` on lie inside the data, are not empty and come in order (rule R163). -/
theorem packetChain_bounds {sop eop : Option (List Bool)} {n i : Nat} {rs : List PacketRange}
    (h : packetChain sop eop n i rs) :
    (∀ p ∈ rs, i ≤ p.start ∧ p.start < p.stop ∧ p.stop ≤ n) ∧ rs.Pairwise fun p q => p.stop ≤ q.start := by
  induction rs generalizing i with
  | nil => simp
  | cons p rest ih =>
    obtain ⟨hi, hs, ht, hc⟩ := h
    obtain ⟨h1, h2⟩ := startsAt_bounds hs hi
    obtain ⟨h3, h4⟩ := stopsAt_bounds ht h2
    obtain ⟨ih1, ih2⟩ := ih hc
    refine ⟨fun q hq => ?_, List.pairwise_cons.2 ⟨fun q hq => (ih1 q hq).1, ih2⟩⟩
    rcases List.mem_cons.1 hq with rfl | hq
    · exact ⟨h1, h3, h4⟩
    · have := ih1 q hq; omega

theorem packetRanges_bounds {n : Nat} {sop eop : Option (List Bool)} {p : PacketRange}
    (h : p ∈ packetRanges n sop eop) : p.start < p.stop ∧ p.stop ≤ n :=
  ((packetChain_bounds (packetRanges_chain n sop eop)).1 p h).2

/-- Reading consecutive indices inside a sequence is taking a sub-sequence. -/
theorem filterMap_range' {α : Type} (xs : List α) (s len : Nat) :
    (List.range' s len).filterMap (fun k => xs[k]?) = (xs.drop s).take len := by
  induction len generalizing s with
  | zero => simp
  | succ len ih =>
    rw [List.range'_succ, List.filterMap_cons, ih]
    cases h : xs[s]? with
    | none => simp [List.drop_eq_nil_of_le (List.getElem?_eq_none_iff.1 h),
        List.drop_eq_nil_of_le (Nat.le_succ_of_le (List.getElem?_eq_none_iff.1 h))]
    | some x =>
      obtain ⟨hl, rfl⟩ := List.getElem?_eq_some_iff.1 h
      rw [List.drop_eq_getElem_cons hl, List.take_succ_cons]

/-- The kept samples of a range, in closed form (rule R164). -/
theorem rangeSamples_eq_validOnly {α : Type} (xs : List α) (valid : Option (List Bool)) (p : PacketRange)
    (hv : ∀ bits, valid = some bits → bits.length = xs.length) :
    rangeSamples xs valid p = validOnly xs valid p := by
  have hsub : ∀ {β : Type} (ys : List β),
      subsequence ys p = (List.range' p.start (p.stop - p.start)).filterMap fun k => ys[k]? :=
    fun ys => (filterMap_range' ys _ _).symm
  unfold rangeSamples validOnly
  generalize List.range' p.start (p.stop - p.start) = ks at hsub
  cases valid with
  | none =>
    have : ks.filter (keeps none) = ks := List.filter_eq_self.2 fun _ _ => rfl
    simp only [this, hsub]
  | some bits =>
    have hlen := hv bits rfl
    simp only [hsub]
    clear hsub
    induction ks with
    | nil => rfl
    | cons k ks ih =>
      rcases Nat.lt_or_ge k xs.length with hk | hk
      · have hk' : k < bits.length := by omega
        have hz : (xs.zip bits)[k]? = some (xs[k], bits[k]) := by simp [hk, hk']
        have hkeep : keeps (some bits) k = bits[k] := by simp [keeps, assertedAt, hk']
        rw [List.filterMap_cons, hz, List.filter_cons, hkeep]
        cases bits[k] with
        | false => simpa using ih
        | true => simpa [List.getElem?_eq_getElem hk] using ih
      · have hz : (xs.zip bits)[k]? = none := by simp; omega
        have hkeep : keeps (some bits) k = false := by
          simp [keeps, assertedAt, List.getElem?_eq_none (show bits.length ≤ k by omega)]
        rw [List.filterMap_cons, hz, List.filter_cons, hkeep]
        simpa using ih

/-- Renaming the elements renames what is kept of a range, for every element type (20_memory.md rule R41). -/
theorem rangeSamples_map {α β : Type} (f : α → β) (xs : List α) (valid : Option (List Bool)) (p : PacketRange) :
    rangeSamples (xs.map f) valid p = (rangeSamples xs valid p).map f := by
  simp [rangeSamples, List.map_filterMap]

end Sys2Proof.Machine
end

