-- ==== Sys2Proof/Laws/PerInstr.lean ====
section
/-!
SUPPORT. One lemma per operation: its descriptor is legal and lies in its own row of the opcode table (30_encoding.md
rules R73, R74).
-/

namespace Sys2Proof.Laws.EncodedIsLegal

/-- The encoding of `i` is a legal descriptor and matches the row of `i`. -/
def Statement (i : Instr) : Prop := (encode i).legal = true ∧ encode i &&& (rowOf i).1 = (rowOf i).2

theorem decFix : Statement .decFix := by unfold Statement; decide
theorem decCfix (c : Bool) : Statement (.decCfix c) := by unfold Statement; revert c; decide
theorem encFix : Statement .encFix := by unfold Statement; decide
theorem packFix (c : Bool) : Statement (.packFix c) := by unfold Statement; revert c; decide
theorem decFlt : Statement .decFlt := by unfold Statement; decide
theorem encFlt : Statement .encFlt := by unfold Statement; decide
theorem rndFix (w h : Bool) : Statement (.rndFix w h) := by unfold Statement; revert w h; decide
theorem satFix : Statement .satFix := by unfold Statement; decide
theorem pktRanges (e sp : Bool) : Statement (.pktRanges e sp) := by unfold Statement; revert e sp; decide
theorem filtAll (e sp v : Bool) : Statement (.filtAll e sp v) := by unfold Statement; revert e sp v; decide
theorem filtList (e sp v : Bool) : Statement (.filtList e sp v) := by unfold Statement; revert e sp v; decide
theorem filtOne (e sp v : Bool) : Statement (.filtOne e sp v) := by unfold Statement; revert e sp v; decide
theorem laneDemuxSer : Statement .laneDemuxSer := by unfold Statement; decide
theorem laneDemuxPar : Statement .laneDemuxPar := by unfold Statement; decide
theorem laneMuxSer : Statement .laneMuxSer := by unfold Statement; decide
theorem laneMuxPar : Statement .laneMuxPar := by unfold Statement; decide

end Sys2Proof.Laws.EncodedIsLegal
end

