-- ==== Sys2Proof/Laws/Pipeline.lean ====
section
/-!
SUPPORT. What chaining requests can do, said once; the two directions follow from it.
-/

namespace Sys2Proof.Machine

/-! ### One request after another -/

@[simp] theorem resultOf_okResponse (x : Result) : resultOf (okResponse x) = .ok x := rfl
@[simp] theorem resultOf_faultResponse (x : Raise) : resultOf (faultResponse x) = .error (faultResponse x) := rfl

theorem resultOf_eq_ok {x : Response} {y : Result} : resultOf x = .ok y ↔ x.result = some y := by
  unfold resultOf
  cases x.result <;> simp

/-- A chain is answered exactly when both parts are. -/
theorem andThen_eq_ok {α β : Type} {x : Except Response α} {f : α → Except Response β} {z : β} :
    andThen x f = .ok z ↔ ∃ y, x = .ok y ∧ f y = .ok z := by
  cases x <;> simp [andThen]

/-- A chain ends with the first part's fault, or with the second's. -/
theorem andThen_eq_error {α β : Type} {x : Except Response α} {f : α → Except Response β} {e : Response} :
    andThen x f = .error e ↔ x = .error e ∨ ∃ y, x = .ok y ∧ f y = .error e := by
  cases x <;> simp [andThen]

@[simp] theorem forEach_nil {α β : Type} (f : α → Except Response β) : forEach f [] = .ok [] := rfl

/-- Doing the same for each element is answered exactly when each element is, with the answers in order. -/
theorem forEach_eq_ok {α β : Type} {f : α → Except Response β} {xs : List α} {ys : List β} :
    forEach f xs = .ok ys ↔ List.Forall₂ (fun x y => f x = .ok y) xs ys := by
  induction xs generalizing ys with
  | nil => simp [eq_comm]
  | cons x xs ih =>
    simp only [forEach, andThen_eq_ok, ih, List.forall₂_cons_left_iff, Except.ok.injEq]
    constructor
    · rintro ⟨y, hy, zs, hz, rfl⟩; exact ⟨y, zs, hy, hz, rfl⟩
    · rintro ⟨y, zs, hy, hz, rfl⟩; exact ⟨y, hy, zs, hz, rfl⟩

/-- A fault of the whole is the fault of an element before which all are answered. -/
theorem forEach_eq_error {α β : Type} {f : α → Except Response β} {xs : List α} {e : Response} :
    forEach f xs = .error e ↔
      ∃ before x after, xs = before ++ x :: after ∧ f x = .error e ∧ ∃ ys, forEach f before = .ok ys := by
  induction xs with
  | nil => simp
  | cons x xs ih =>
    simp only [forEach, andThen_eq_error, ih, reduceCtorEq, and_false, exists_false, or_false]
    constructor
    · rintro (hx | ⟨y, hy, before, z, after, rfl, hz, ys, hys⟩)
      · exact ⟨[], x, xs, rfl, hx, [], rfl⟩
      · exact ⟨x :: before, z, after, rfl, hz, y :: ys, by simp [forEach, hy, hys, andThen]⟩
    · rintro ⟨before, z, after, hxs, hz, ys, hys⟩
      cases before with
      | nil => obtain ⟨rfl, rfl⟩ := List.cons.inj hxs; exact .inl hz
      | cons b before =>
        obtain ⟨rfl, rfl⟩ := List.cons.inj hxs
        obtain ⟨y, hy, h⟩ := andThen_eq_ok.1 hys
        obtain ⟨ys', hys', -⟩ := andThen_eq_ok.1 h
        exact .inr ⟨y, hy, before, z, after, rfl, hz, ys', hys'⟩

/-- Lane by lane, serial mode. -/
theorem forEachLane_serial_eq_ok {α β : Type} {f : α → Except Response β} {xs : List α} {out : Channels β} :
    forEachLane f (.serial xs) = .ok out ↔ ∃ ys, out = .serial ys ∧ List.Forall₂ (fun x y => f x = .ok y) xs ys := by
  simp only [forEachLane, andThen_eq_ok, forEach_eq_ok, Except.ok.injEq]
  exact ⟨fun ⟨ys, h, e⟩ => ⟨ys, e.symm, h⟩, fun ⟨ys, e, h⟩ => ⟨ys, h, e.symm⟩⟩

/-- Lane by lane, parallel mode. -/
theorem forEachLane_parallel_eq_ok {α β : Type} {f : α → Except Response β} {xss : List (List α)} {out : Channels β} :
    forEachLane f (.parallel xss) = .ok out ↔
      ∃ yss, out = .parallel yss ∧ List.Forall₂ (List.Forall₂ fun x y => f x = .ok y) xss yss := by
  simp only [forEachLane, andThen_eq_ok, forEach_eq_ok, Except.ok.injEq]
  exact ⟨fun ⟨ys, h, e⟩ => ⟨ys, e.symm, h⟩, fun ⟨ys, e, h⟩ => ⟨ys, h, e.symm⟩⟩

/-! ### The directions (00_scope.md rule R5) -/

/-- All that the decode direction can answer: the filter answers, and each of its sequences is demultiplexed and
decoded. -/
theorem decodeDirection_eq_ok {mode : PacketMode} {e sp v : Bool} {lm : LaneMode} {form : WordForm} {P : Params}
    {r : Request} {out : List (Channels Result)} :
    decodeDirection mode e sp v lm form P r = .ok out ↔
      ∃ kept, (serveFilter mode e sp v P r).result = some kept ∧
        List.Forall₂ (fun words y => decodePacket lm form P r words = .ok y) (packetsOf kept) out := by
  simp only [decodeDirection, andThen_eq_ok, resultOf_eq_ok, forEach_eq_ok]

/-- All that one packet's part of the decode direction can answer. -/
theorem decodePacket_eq_ok {lm : LaneMode} {form : WordForm} {P : Params} {r : Request} {words : List Int}
    {out : Channels Result} :
    decodePacket lm form P r words = .ok out ↔
      ∃ lanes, (serveLaneDemux lm P { r with words := words }).result = some lanes ∧
        forEachLane (fun lane => resultOf (decodeWord form P r lane)) (channelsOf lanes) = .ok out := by
  simp only [decodePacket, andThen_eq_ok, resultOf_eq_ok]

/-- All that one sample's part of the encode direction can answer: quantized, requantized, formed into a word. -/
theorem encodeSample_eq_ok {stages : List Requantize} {form : WordForm} {P : Params} {q r : Request} {v : Sample}
    {word : Int} :
    encodeSample stages form P q r v = .ok word ↔
      ∃ codes re im y, (serveEncFix P { q with sample := v }).result = some codes ∧
        requantize P r stages (codesOf codes).1 = .ok re ∧ requantize P r stages (codesOf codes).2 = .ok im ∧
        (encodeWord form P r re im).result = some y ∧ word = (wordOf y : Int) := by
  simp only [encodeSample, andThen_eq_ok, resultOf_eq_ok, Except.ok.injEq, @eq_comm _ _ word]
  constructor
  · rintro ⟨codes, h1, re, h2, im, h3, y, h4, h5⟩; exact ⟨codes, re, im, y, h1, h2, h3, h4, h5⟩
  · rintro ⟨codes, re, im, y, h1, h2, h3, h4, h5⟩; exact ⟨codes, h1, re, h2, im, h3, y, h4, h5⟩

/-- All that the encode direction can answer. -/
theorem encodeDirection_eq_ok {stages : List Requantize} {form : WordForm} {P : Params} {q r : Request}
    {values : Channels Sample} {out : Result} :
    encodeDirection stages form P q r values = .ok out ↔
      ∃ lanes, forEachLane (encodeSample stages form P q r) values = .ok lanes ∧
        (serveLaneMux P r lanes).result = some out := by
  simp only [encodeDirection, andThen_eq_ok, resultOf_eq_ok]

/-- Without a Requantizer request a code stays as it is. -/
@[simp] theorem requantize_nil (P : Params) (r : Request) (code : Int) : requantize P r [] code = .ok code := rfl

/-- A chain of Requantizer requests goes on with the code of each result. -/
theorem requantize_cons_eq_ok {P : Params} {r : Request} {st : Requantize} {rest : List Requantize} {code out : Int} :
    requantize P r (st :: rest) code = .ok out ↔
      ∃ y, (serveRequantize st P r code).result = some y ∧ requantize P r rest (patternCode r y) = .ok out := by
  simp only [requantize, andThen_eq_ok, resultOf_eq_ok]

end Sys2Proof.Machine
end

