-- ==== Sys2Proof/Tests/Slice0.lean ====
section
/-!
SUPPORT. Tests: descriptors written out bit by bit from 30_encoding.md rule R73, the checks of WellFormed, single requests
from the tables of 95_test_vectors.md, and for each statement with hypotheses a witness that meets them.
-/

namespace Sys2Proof.Tests

open Sys2Proof.Machine

/-! ### Small states -/

/-- An instance without maxima, with this bias and tie rule. -/
def unbounded (bias : Nat) (tie : TieRule) : Params :=
  { expBias := bias, encTie := tie, wmaxAbove := none, nmaxAbove := none, lenmax := none }

/-- A request with this FixedFormat. -/
def withFormat (s i f : Int) : Request := { Request.blank with signBits := s, intBits := i, fracBits := f }

/-- A requantizer request. -/
def withWidths (inW outW v : Int) : Request := { Request.blank with inWidth := inW, outWidth := outW, value := v }

/-- A lane request. -/
def withLanes (n sb : Int) : Request := { Request.blank with lanes := n, sampleBits := sb }

/-- The frame of vector S5: ten samples, SOP at 2 and 6, EOP at 4 and 9, and the validity of V5.21. -/
def frame : Request :=
  { Request.blank with
    count := 10
    samples := [0, 1, 2, 3, 4, 5, 6, 7, 8, 9]
    valid := [true, true, true, false, true, true, true, true, false, false]
    sop := [false, false, true, false, false, false, true, false, false, false]
    eop := [false, false, false, false, true, false, false, false, false, true] }

/-- The state in which a request is in flight. -/
def busy (r : Request) : State := { inFlight := some r, response := none }

/-! ### WellFormed: each check refuses an ill-formed descriptor (vector table V7) -/

theorem test_wf_refuses_unused_op : Descriptor.opUsed 0x07 = false ∧ Descriptor.legal 0x07 = false := by decide
theorem test_wf_refuses_modifier : Descriptor.modifiersClear 0x21 = false ∧ Descriptor.legal 0x21 = false := by decide
theorem test_wf_refuses_reserved_mode : Descriptor.modeUsed 0x50 = false ∧ Descriptor.legal 0x50 = false := by decide
theorem test_wf_counts_45_legal :
    ((List.range 256).filter fun w => Descriptor.legal (BitVec.ofNat 8 w)).length = 45 := by decide

/-! ### Decoding, one word or more per operation (rule R73) -/

theorem test_decode_decFix : decode 0b00000001#8 = .ok .decFix := by decide
theorem test_decode_decCfix :
    decode 0b00000010#8 = .ok (.decCfix false) ∧ decode 0b00100010#8 = .ok (.decCfix true) := by decide
theorem test_decode_encFix : decode 0b00000011#8 = .ok .encFix := by decide
theorem test_decode_packFix :
    decode 0b00000100#8 = .ok (.packFix false) ∧ decode 0b00100100#8 = .ok (.packFix true) := by decide
theorem test_decode_decFlt : decode 0b00000101#8 = .ok .decFlt := by decide
theorem test_decode_encFlt : decode 0b00000110#8 = .ok .encFlt := by decide
theorem test_decode_rndFix :
    decode 0b00101000#8 = .ok (.rndFix false true) ∧ decode 0b01001000#8 = .ok (.rndFix true false) := by decide
theorem test_decode_satFix : decode 0b00001001#8 = .ok .satFix := by decide
theorem test_decode_pktRanges :
    decode 0b01001100#8 = .ok (.pktRanges false true) ∧ decode 0b10001100#8 = .ok (.pktRanges true false) := by decide
theorem test_decode_filtAll :
    decode 0b00101101#8 = .ok (.filtAll false false true) ∧ decode 0b01001101#8 = .ok (.filtAll false true false) ∧
      decode 0b10001101#8 = .ok (.filtAll true false false) := by decide
theorem test_decode_filtList : decode 0b10101110#8 = .ok (.filtList true false true) := by decide
theorem test_decode_filtOne : decode 0b11101111#8 = .ok (.filtOne true true true) := by decide
theorem test_decode_laneDemux :
    decode 0b00010000#8 = .ok .laneDemuxSer ∧ decode 0b00110000#8 = .ok .laneDemuxPar := by decide
theorem test_decode_laneMux :
    decode 0b00010001#8 = .ok .laneMuxSer ∧ decode 0b00110001#8 = .ok .laneMuxPar := by decide
theorem test_decode_rejects_by_name :
    decode 0x0A = .error (.unusedOp 10) ∧ decode 0x2C = .error .modifierMustBeZero ∧
      decode 0x71 = .error .reservedMode := by decide

/-- The word of a row, placed where `step` takes its request from, is the operation that runs. -/
theorem test_withFetchWord : decodeTableWord 8 0x05 = some .decFlt ∧
    step (State.reset.withFetchWord 8 0x05) = .next (delivered (okResponse (.floatValue 0 0 0))) := by
  exact ⟨by decide, rfl⟩

/-! ### Single requests (95_test_vectors.md) -/

/-- V1.1, V1.8. -/
theorem test_decFix_signed :
    serveDecFix (unbounded 0 .halfUp) { withFormat 1 3 4 with raw := 0xF8 } = okResponse (.value (.real (-1 / 2))) ∧
    serveDecFix (unbounded 0 .halfUp) { withFormat 1 0 0 with raw := 1 } = okResponse (.value (.real (-1))) := by
  decide +kernel
/-- V1.7. -/
theorem test_decFix_unsigned :
    serveDecFix (unbounded 0 .halfUp) { withFormat 0 4 4 with raw := 0xF8 } = okResponse (.value (.real (31 / 2))) := by
  decide +kernel
/-- V1.15. -/
theorem test_decCfix_complex : serveDecCfix true (unbounded 0 .halfUp) { withFormat 1 3 4 with raw := 0xF818 } =
    okResponse (.value (.complex (3 / 2) (-1 / 2))) := by decide +kernel
/-- V1.16. -/
theorem test_decCfix_real : serveDecCfix false (unbounded 0 .halfUp) { withFormat 1 3 4 with raw := 0xF818 } =
    okResponse (.value (.real (3 / 2))) := by decide +kernel
/-- V2.7: the three tie rules. -/
theorem test_encFix_ties :
    (([.halfUp, .halfEven, .halfAway] : List TieRule).map fun tie =>
      serveEncFix (unbounded 0 tie) { withFormat 1 3 4 with sample := .complex (3 / 32) (-3 / 32) }) =
    [okResponse (.codes 2 (-1)), okResponse (.codes 2 (-2)), okResponse (.codes 2 (-2))] := by decide +kernel
/-- V2.2. -/
theorem test_encFix_saturates :
    serveEncFix (unbounded 0 .halfEven) { withFormat 1 3 4 with sample := .complex (3 / 2) (-100) } =
      okResponse (.codes 24 (-128)) := by decide +kernel
/-- V2.18. -/
theorem test_packFix_complex :
    servePackFix true (unbounded 0 .halfUp) { withFormat 1 3 4 with realCode := 24, imagCode := -8 } =
      okResponse (.word 16 0xF818) := by decide +kernel
/-- V2.19. -/
theorem test_packFix_real :
    servePackFix false (unbounded 0 .halfUp) { withFormat 1 3 4 with realCode := 24, imagCode := 999 } =
      okResponse (.word 8 0x18) := by decide +kernel
/-- V3.31, V3.33. -/
theorem test_decFlt :
    serveDecFlt (unbounded 0 .halfUp) { Request.blank with raw := 0x04005800 } = okResponse (.floatValue (-2048) 2 1) ∧
    serveDecFlt (unbounded 0 .halfUp) { Request.blank with raw := 0xFFFFFFFF } =
      okResponse (.floatValue (-1) (-1) 63) := by decide +kernel
/-- V3.7, V3.10. -/
theorem test_encFlt_words :
    serveEncFlt (unbounded 0 .halfUp) { withFormat 1 31 0 with realCode := -4097, imagCode := 3 } =
      okResponse (.word 32 0x04005800) ∧
    serveEncFlt (unbounded 0 .halfUp) { withFormat 1 31 0 with realCode := -8192, imagCode := 8191 } =
      okResponse (.word 32 0x05FFF000) := by decide +kernel
/-- V3.26, V3.27. -/
theorem test_encFlt_bias :
    serveEncFlt (unbounded 63 .halfUp) { withFormat 1 31 0 with realCode := 1 } = okResponse (.word 32 0xFC000001) ∧
    serveEncFlt (unbounded 63 .halfUp) { withFormat 1 31 0 with realCode := 4096 } =
      faulted .expRangeFault (.exponent 64) := by decide +kernel
/-- V4.5: default, `H`, `W`, `H` and `W`. -/
theorem test_rndFix_negative_half :
    ([(false, false), (false, true), (true, false), (true, true)].map fun m =>
      serveRndFix m.1 m.2 (unbounded 0 .halfUp) (withWidths 16 8 0x8080)) =
    [0x81, 0x80, 0x81, 0x80].map fun p => okResponse (.word 8 p) := by decide +kernel
/-- V4.2: kept at the positive maximum, or wrapped. -/
theorem test_rndFix_top :
    serveRndFix false false (unbounded 0 .halfUp) (withWidths 16 8 0x7F80) = okResponse (.word 8 0x7F) ∧
    serveRndFix true false (unbounded 0 .halfUp) (withWidths 16 8 0x7F80) = okResponse (.word 8 0x80) := by
  decide +kernel
/-- V4.1, V4.8. -/
theorem test_satFix_clamps :
    serveSatFix (unbounded 0 .halfUp) (withWidths 16 8 0x7FFF) = okResponse (.word 8 0x7F) ∧
    serveSatFix (unbounded 0 .halfUp) (withWidths 16 8 0xFF7F) = okResponse (.word 8 0x80) := by decide +kernel
/-- The widening table of V4. -/
theorem test_satFix_widens : serveSatFix (unbounded 0 .halfUp) (withWidths 3 5 4) = okResponse (.word 5 0b11100) := by
  decide +kernel
/-- S5. -/
theorem test_pktRanges_source_example : servePktRanges true true (unbounded 0 .halfUp) frame =
    okResponse (.ranges [{ start := 2, stop := 5 }, { start := 6, stop := 10 }]) := by decide +kernel
/-- V5.20. -/
theorem test_pktRanges_length :
    servePktRanges true false (unbounded 0 .halfUp) { Request.blank with count := 3, eop := [false, false, false, true] } =
      faulted .lengthMismatchError (.operand .eop) := by decide +kernel
/-- V5.21. -/
theorem test_filtAll : serveFiltAll true true true (unbounded 0 .halfUp) frame = okResponse (.samples [2, 4, 6, 7]) := by
  decide +kernel
/-- V5.21. -/
theorem test_filtList : serveFiltList true true true (unbounded 0 .halfUp) frame =
    okResponse (.packets [[2, 4], [6, 7]]) := by decide +kernel
/-- V5.21. -/
theorem test_filtOne : serveFiltOne true true true (unbounded 0 .halfUp) frame = okResponse (.samples [2, 4]) := by
  decide +kernel
/-- V6.1. -/
theorem test_laneDemuxSer :
    serveLaneDemuxSer (unbounded 0 .halfUp) { withLanes 4 8 with words := [0xDDCCBBAA, 0x44332211] } =
      okResponse (.flat 8 [0xAA, 0xBB, 0xCC, 0xDD, 0x11, 0x22, 0x33, 0x44]) := by decide +kernel
/-- V6.2. -/
theorem test_laneDemuxPar :
    serveLaneDemuxPar (unbounded 0 .halfUp) { withLanes 4 8 with words := [0xDDCCBBAA, 0x44332211] } =
      okResponse (.streams 8 [[0xAA, 0x11], [0xBB, 0x22], [0xCC, 0x33], [0xDD, 0x44]]) := by decide +kernel
/-- V6.4, V6.6. -/
theorem test_laneMuxSer :
    serveLaneMuxSer (unbounded 0 .halfUp) { withLanes 3 5 with flat := [0x1F, 0, 0x15] } =
      okResponse (.words 15 [0x541F]) ∧
    serveLaneMuxSer (unbounded 0 .halfUp) { withLanes 2 4 with flat := [0x1B, 0xA] } =
      okResponse (.words 8 [0xAB]) := by decide +kernel
/-- V6.7. -/
theorem test_laneMuxPar :
    serveLaneMuxPar (unbounded 0 .halfUp) { withLanes 2 16 with streams := [[0x1111, 0x3333], [0x2222, 0x4444]] } =
      okResponse (.words 32 [0x22221111, 0x44443333]) := by decide +kernel
/-- V7.2, V7.3: `N` before `sample_bits`, configuration before lengths. -/
theorem test_lane_priority :
    serveLaneMuxSer (unbounded 0 .halfUp) { withLanes 0 0 with flat := [1] } = faulted .formatError (.operand .lanes) ∧
    serveLaneMuxSer (unbounded 0 .halfUp) { withLanes 2 0 with flat := [1, 2, 3] } =
      faulted .configurationError (.operand .sampleBits) := by decide +kernel
/-- The spellings of V5. -/
theorem test_asserted :
    [['1'], ['1', '\'', 'b', '1'], ['1', 'b', '1'], ['0', '1'], ['0', 'x', '0', '1'], ['0', 'b', '1']].all
      (fun cs => asserted (.text cs)) = true ∧
    [[], ['0'], ['2'], ['0', 'x', '2'], ['0', 'b', '1', '0'], ['z'], ['1', '\'', 'b', '0']].any
      (fun cs => asserted (.text cs)) = false := by decide

/-! ### Compositions (95_test_vectors.md section 3) -/

/-- The trace of program P1. -/
def trace : Request :=
  { withFormat 1 3 4 with
    sampleBits := 16
    lanes := 2
    samples := [0xDEADBEEF, 0xF8180810, 0x00000000, 0x807F01FF, 0x12345678, 0x0BADF00D]
    valid := [true, true, false, true, true, true]
    sop := [false, true, false, false, false, false]
    eop := [false, false, false, true, false, false] }

/-- P1, serial. -/
theorem test_decodeDirection_serial :
    decodeDirection .all true true true .serial (.fixed true) (unbounded 0 .halfUp) trace =
      .ok [.serial [.value (.complex 1 (1 / 2)), .value (.complex (3 / 2) (-1 / 2)),
        .value (.complex (-1 / 16) (1 / 16)), .value (.complex (127 / 16) (-8))]] := by decide +kernel
/-- P1, parallel, each packet on its own. -/
theorem test_decodeDirection_parallel :
    decodeDirection .list true true true .parallel (.fixed true) (unbounded 0 .halfUp) trace =
      .ok [.parallel [[.value (.complex 1 (1 / 2)), .value (.complex (-1 / 16) (1 / 16))],
        [.value (.complex (3 / 2) (-1 / 2)), .value (.complex (127 / 16) (-8))]]] := by decide +kernel
/-- P2, the encode half. -/
theorem test_encodeDirection_fixed :
    encodeDirection [] (.fixed true) (unbounded 0 .halfEven) trace trace
        (.serial [.complex (3 / 2) (-1 / 2), .complex 100 (-100)]) =
      .ok (.words 32 [0x807FF818]) := by decide +kernel
/-- V6.10: the block-float words of V3.22 (P3's sample) and V3.7 in one 64-bit word, and back. -/
theorem test_directions_float :
    encodeDirection [] .float (unbounded 0 .halfUp) (withFormat 1 31 0)
        { withFormat 1 31 0 with sampleBits := 32, lanes := 2 } (.parallel [[.complex 4353 (-3)], [.complex (-4097) 3]]) =
      .ok (.words 64 [0x0400580007FFE881]) ∧
    decodeDirection .one false false false .parallel .float (unbounded 0 .halfUp)
        { withLanes 2 32 with samples := [0x0400580007FFE881] } =
      .ok [.parallel [[.floatValue 2177 (-1) 1], [.floatValue (-2048) 2 1]]] := by decide +kernel
/-- P4, rows 1 and 3 with step 4, packed as 8-bit words: `0x7FF8` gives `0x7F`, `0xFFB8` gives `0xFC`. -/
theorem test_encodeDirection_requantizes :
    encodeDirection [.rndFix false false 16 12, .satFix 12 8] (.fixed false) (unbounded 0 .halfUp) (withFormat 1 15 0)
        { withFormat 1 7 0 with sampleBits := 8, lanes := 2 } (.serial [.real 32760, .real (-72)]) =
      .ok (.words 16 [0xFC7F]) := by decide +kernel

/-! ### Witnesses: the hypotheses of each statement are met

The maxima of an instance are open: `WMAX` is at least 32, `NMAX` at least 1, `LENMAX` at least 0. A witness about this
instance uses operands that every instance admits; one with a hypothesis on a maximum shows a larger request as well. -/

theorem withinMax_least {m : Maximum} {x : Nat} (h : x ≤ m.least) : withinMax m x := fun _ _ => by omega

theorem width_ok {P : Params} {x : Nat} (h : x ≤ 32) : withinMax (wmaxOf P) x := withinMax_least h

/-- A format that every instance admits. -/
theorem format_ok {P : Params} {parts : Nat} {r : Request} (hs : r.signBits = 0 ∨ r.signBits = 1) (hi : 0 ≤ r.intBits)
    (hf : 0 ≤ r.fracBits) (h1 : 1 ≤ r.signBits + r.intBits + r.fracBits)
    (h2 : parts * (r.signBits + r.intBits + r.fracBits).toNat ≤ 32) : legalFormat P parts r :=
  ⟨hs, hi, hf, h1, width_ok h2⟩

theorem witness_DecodeAndEncodeAgree : decode 0xED = .ok (.filtAll true true true) := by decide

theorem witness_LegalDescriptorsMatchOneRow :
    decode 0xED = .ok (.filtAll true true true) ∧
      (0xED : Descriptor) &&& (rowOf (.filtAll false false false)).1 = (rowOf (.filtAll false false false)).2 := by decide

theorem witness_StepRunsDecodedOperation :
    (busy { Request.blank with opd := 0x05 }).inFlight = some { Request.blank with opd := 0x05 } ∧
      decode 0x05 = .ok .decFlt := by decide

theorem witness_IllegalDescriptorRaisesFormatError :
    ∀ d ∈ ([0x00, 0x21, 0x50] : List Descriptor),
      (busy { Request.blank with opd := d }).inFlight = some { Request.blank with opd := d } ∧
        d.legal = false := fun d hd => ⟨rfl, by revert d; decide⟩

theorem witness_OneRequestOneResponse : (busy Request.blank).inFlight = some Request.blank := rfl

theorem witness_StepDependsOnlyOnRequest :
    (busy Request.blank).inFlight = some Request.blank ∧
      ({ inFlight := some Request.blank, response := some (illegalDescriptor .reservedMode) } : State).inFlight =
        some Request.blank := ⟨rfl, rfl⟩

theorem witness_StepKeepsResponseInvariant :
    stateInv (busy { Request.blank with opd := 0x05 }) = true ∧
      step (busy { Request.blank with opd := 0x05 }) = .next (delivered (okResponse (.floatValue 0 0 0))) := ⟨rfl, rfl⟩

theorem witness_ResetLeavesMachineReady :
    present Request.blank (assertReset (busy Request.blank)) = some (busy Request.blank) ∧
      (busy Request.blank).inFlight = some Request.blank := ⟨rfl, rfl⟩

theorem witness_OperationsReturnTheirStatuses :
    exec .decFlt (busy Request.blank) = .next (delivered (okResponse (.floatValue 0 0 0))) ∧
      (delivered (okResponse (.floatValue 0 0 0))).response = some (okResponse (.floatValue 0 0 0)) := ⟨rfl, rfl⟩

theorem witness_MaximaAreOnlyGuards :
    (busy frame).inFlight = some frame ∧
      (responseOf (unbounded 0 .halfUp) (.filtAll true true true) frame).status = .ok ∧
      (responseOf { unbounded 0 .halfUp with lenmax := some 10 } (.filtAll true true true) frame).status = .ok := by
  decide +kernel

theorem witness_BadFormatRaisesConfigurationError :
    (busy (withFormat 2 3 3)).inFlight = some (withFormat 2 3 3) ∧
      (∀ parts : Nat, ¬ legalFormat Config.params parts (withFormat 2 3 3)) ∧
      (∀ parts : Nat, ¬ legalFormat Config.params parts (withFormat 1 (-1) 4)) ∧
      (∀ parts : Nat, ¬ legalFormat Config.params parts (withFormat 1 4 (-1))) ∧
      ∀ parts : Nat, ¬ legalFormat Config.params parts (withFormat 0 0 0) := by
  refine ⟨rfl, ?_, ?_, ?_, ?_⟩ <;> intro parts h <;> simp [legalFormat, withFormat] at h

theorem witness_DecFixReadsCodeOverScale :
    (busy (withFormat 1 3 4)).inFlight = some (withFormat 1 3 4) ∧ legalFormat Config.params 1 (withFormat 1 3 4) :=
  ⟨rfl, format_ok (by decide) (by decide) (by decide) (by decide) (by decide)⟩

theorem witness_DecCfixReadsHalves :
    (busy (withFormat 1 3 4)).inFlight = some (withFormat 1 3 4) ∧
      ∀ c : Bool, legalFormat Config.params (if c then 2 else 1) (withFormat 1 3 4) :=
  ⟨rfl, fun c => by cases c <;> exact format_ok (by decide) (by decide) (by decide) (by decide) (by decide)⟩

theorem witness_EncFixScalesRoundsClips :
    (busy { withFormat 1 3 4 with sample := .real (3 / 32) }).inFlight =
        some { withFormat 1 3 4 with sample := .real (3 / 32) } ∧
      legalFormat Config.params 1 { withFormat 1 3 4 with sample := .real (3 / 32) } :=
  ⟨rfl, format_ok (by decide) (by decide) (by decide) (by decide) (by decide)⟩

/-- `(100, -100)` lies above the range in its real part and below it in its imaginary part, `(-100, 100)` the other way
round. -/
theorem witness_EncFixSaturatesToNearerBound :
    legalFormat Config.params 1 { withFormat 1 3 4 with sample := .complex 100 (-100) } ∧
      legalFormat Config.params 1 { withFormat 1 3 4 with sample := .complex (-100) 100 } ∧
      (maxCode (withFormat 1 3 4) : Rat) < 100 * 2 ^ 4 ∧ (-100 : Rat) * 2 ^ 4 < (minCode (withFormat 1 3 4) : Rat) :=
  ⟨format_ok (by decide) (by decide) (by decide) (by decide) (by decide),
    format_ok (by decide) (by decide) (by decide) (by decide) (by decide),
    by norm_num [maxCode, withFormat, show Int.toNat 7 = 7 from rfl, show Int.toNat 4 = 4 from rfl],
    by norm_num [minCode, withFormat, show Int.toNat 7 = 7 from rfl, show Int.toNat 4 = 4 from rfl]⟩

theorem witness_EncodeThenDecodeFixedIsClose :
    legalFormat Config.params 1 { withFormat 1 3 4 with sample := .real (1 / 3) } ∧
      (minCode (withFormat 1 3 4) : Rat) ≤ 1 / 3 * 2 ^ (withFormat 1 3 4).fracBits.toNat ∧
      1 / 3 * 2 ^ (withFormat 1 3 4).fracBits.toNat ≤ (maxCode (withFormat 1 3 4) : Rat) :=
  ⟨format_ok (by decide) (by decide) (by decide) (by decide) (by decide),
    by norm_num [minCode, withFormat, show Int.toNat 7 = 7 from rfl, show Int.toNat 4 = 4 from rfl],
    by norm_num [maxCode, withFormat, show Int.toNat 7 = 7 from rfl, show Int.toNat 4 = 4 from rfl]⟩

theorem witness_DecFixInvertsCodePattern :
    legalFormat Config.params 1 (withFormat 1 3 4) ∧ codeInRange (withFormat 1 3 4) (-128) ∧
      codeInRange (withFormat 1 3 4) 127 ∧
      (busy { withFormat 1 3 4 with raw := 0x80 }).inFlight = some { withFormat 1 3 4 with raw := -128 % 2 ^ 8 } :=
  ⟨format_ok (by decide) (by decide) (by decide) (by decide) (by decide), by simp [codeInRange, minCode, maxCode, withFormat],
    by simp [codeInRange, minCode, maxCode, withFormat], by simp [busy]⟩

theorem witness_PackFixBuildsWord :
    (∀ c : Bool, legalFormat Config.params (if c then 2 else 1)
      { withFormat 1 3 4 with realCode := 127, imagCode := -128 }) ∧
      codeInRange { withFormat 1 3 4 with realCode := 127, imagCode := -128 } 127 ∧
      codeInRange { withFormat 1 3 4 with realCode := 127, imagCode := -128 } (-128) :=
  ⟨fun c => by cases c <;> exact format_ok (by decide) (by decide) (by decide) (by decide) (by decide),
    by simp [codeInRange, minCode, maxCode, withFormat], by simp [codeInRange, minCode, maxCode, withFormat]⟩

/-- One request for the three clauses: the real code 128 is just above the range. -/
theorem witness_CodeOutOfRangeRaisesConfigurationError :
    legalFormat Config.params 1 { withFormat 1 3 4 with realCode := 128 } ∧
      legalFormat Config.params 2 { withFormat 1 3 4 with realCode := 128 } ∧
      ¬ codeInRange { withFormat 1 3 4 with realCode := 128 } 128 :=
  ⟨format_ok (by decide) (by decide) (by decide) (by decide) (by decide),
    format_ok (by decide) (by decide) (by decide) (by decide) (by decide), by simp [codeInRange, maxCode, withFormat]⟩

theorem witness_DecCfixInvertsPackFix :
    legalFormat Config.params 2 { withFormat 1 3 4 with realCode := 24, imagCode := -8 } ∧
      codeInRange { withFormat 1 3 4 with realCode := 24, imagCode := -8 } 24 ∧
      codeInRange { withFormat 1 3 4 with realCode := 24, imagCode := -8 } (-8) :=
  ⟨format_ok (by decide) (by decide) (by decide) (by decide) (by decide),
    by simp [codeInRange, minCode, maxCode, withFormat], by simp [codeInRange, minCode, maxCode, withFormat]⟩

theorem witness_DecFltReadsFields : (busy Request.blank).inFlight = some Request.blank := rfl

theorem witness_DecFltIgnoresExponent :
    (busy { Request.blank with raw := 1 }).inFlight = some { Request.blank with raw := 1 } ∧
      (busy { Request.blank with raw := 0xFC000001 }).inFlight = some { Request.blank with raw := 0xFC000001 } ∧
      (1 : Int) % 2 ^ 26 = 0xFC000001 % 2 ^ 26 := ⟨rfl, rfl, by decide⟩

theorem witness_EncFltZeroIsCanonical :
    (busy (withFormat 1 15 0)).inFlight = some (withFormat 1 15 0) ∧ (∀ P, legalFormat P 1 (withFormat 1 15 0)) ∧
      (withFormat 1 15 0).realCode = 0 ∧ (withFormat 1 15 0).imagCode = 0 :=
  ⟨rfl, fun _ => format_ok (by decide) (by decide) (by decide) (by decide) (by decide), rfl, rfl⟩

theorem witness_EncFltPacksSharedExponent :
    legalFormat Config.params 1 { withFormat 1 31 0 with realCode := 8191 } ∧
      codeInRange { withFormat 1 31 0 with realCode := 8191 } 8191 ∧
      codeInRange { withFormat 1 31 0 with realCode := 8191 } 0 ∧ fitsShift 8191 0 1 ∧
      ∀ k, k < 1 → ¬ fitsShift 8191 0 k :=
  ⟨format_ok (by decide) (by decide) (by decide) (by decide) (by decide),
    by simp [codeInRange, minCode, maxCode, withFormat], by simp [codeInRange, minCode, maxCode, withFormat],
    by simp [fitsShift], fun k hk => by obtain rfl : k = 0 := by omega
                                        simp [fitsShift]⟩

theorem witness_DecFltInvertsEncFltInRange :
    legalFormat Config.params 1 (withFormat 1 15 0) ∧ codeInRange (withFormat 1 15 0) 0 :=
  ⟨format_ok (by decide) (by decide) (by decide) (by decide) (by decide),
    by simp [codeInRange, minCode, maxCode, withFormat]⟩

theorem witness_DecFltInvertsEncFltInRange_bounds :
    legalFormat Config.params 1 { withFormat 1 15 0 with realCode := 4095, imagCode := -4096 } ∧
      codeInRange (withFormat 1 15 0) 4095 ∧ codeInRange (withFormat 1 15 0) (-4096) :=
  ⟨format_ok (by decide) (by decide) (by decide) (by decide) (by decide),
    by simp [codeInRange, minCode, maxCode, withFormat], by simp [codeInRange, minCode, maxCode, withFormat]⟩

/-- Both sides of each clause happen: an array that is answered and one with a sample that faults. -/
theorem witness_EncodeFloatArrayIsElementwise :
    encodeFloatArray (unbounded 0 .halfUp) (withFormat 1 7 0) [(1, 0), (0, -128)] =
        .ok [.word 32 1, .word 32 0x03F00000] ∧
      (serveEncFlt (unbounded 0 .halfUp) { withFormat 1 7 0 with realCode := 128, imagCode := 0 }).status ≠ .ok := by
  decide +kernel

theorem witness_EqualWidthsAreIdentity :
    (busy (withWidths 8 8 0x80)).inFlight = some (withWidths 8 8 0x80) ∧
      legalWidths Config.params (withWidths 8 8 0x80) ∧ legalWidths Config.params (withWidths 1 1 1) :=
  ⟨rfl, ⟨by decide, by decide, width_ok (by decide), width_ok (by decide)⟩,
    ⟨by decide, by decide, width_ok (by decide), width_ok (by decide)⟩⟩

theorem witness_WideningSignExtends :
    (busy (withWidths 3 5 4)).inFlight = some (withWidths 3 5 4) ∧ legalWidths Config.params (withWidths 3 5 4) ∧
      (withWidths 3 5 4).inWidth ≤ (withWidths 3 5 4).outWidth :=
  ⟨rfl, ⟨by decide, by decide, width_ok (by decide), width_ok (by decide)⟩, by decide⟩

theorem witness_RndFixRoundsToNearest :
    (busy (withWidths 16 8 0x8080)).inFlight = some (withWidths 16 8 0x8080) ∧
      legalWidths Config.params (withWidths 16 8 0x8080) ∧
      (withWidths 16 8 0x8080).outWidth < (withWidths 16 8 0x8080).inWidth :=
  ⟨rfl, ⟨by decide, by decide, width_ok (by decide), width_ok (by decide)⟩, by decide⟩

theorem witness_SatFixClampsSignedReading :
    (busy (withWidths 2 1 3)).inFlight = some (withWidths 2 1 3) ∧ legalWidths Config.params (withWidths 2 1 3) ∧
      (withWidths 2 1 3).outWidth < (withWidths 2 1 3).inWidth :=
  ⟨rfl, ⟨by decide, by decide, width_ok (by decide), width_ok (by decide)⟩, by decide⟩

theorem witness_BadWidthRaisesConfigurationError :
    (busy (withWidths 0 4 0)).inFlight = some (withWidths 0 4 0) ∧ ¬ legalWidths Config.params (withWidths 0 4 0) ∧
      ¬ legalWidths Config.params (withWidths 4 0 0) := by
  refine ⟨rfl, ?_, ?_⟩ <;> intro h <;> simp [legalWidths, withWidths] at h

theorem witness_HighOperandBitsAreIgnored :
    (busy { withFormat 1 3 4 with inWidth := 3, raw := 0xF8, value := 3 }).inFlight =
        some { withFormat 1 3 4 with inWidth := 3, raw := 0xF8, value := 3 } ∧
      (busy { withFormat 1 3 4 with inWidth := 3, raw := 0x1000000F8, value := 0xB }).inFlight =
        some { withFormat 1 3 4 with inWidth := 3, raw := 0x1000000F8, value := 0xB } ∧
      (0xF8 : Int) % 2 ^ 8 = 0x1000000F8 % 2 ^ 8 ∧ (0xF8 : Int) % 2 ^ (2 * 8) = 0x1000000F8 % 2 ^ (2 * 8) ∧
      (0xF8 : Int) % 2 ^ 32 = 0x1000000F8 % 2 ^ 32 ∧ (3 : Int) % 2 ^ 3 = 0xB % 2 ^ 3 :=
  ⟨rfl, rfl, by decide, by decide, by decide, by decide⟩

/-- The hypotheses of the statements about ranges and filters, on empty data, which every instance admits. -/
theorem witness_packets_empty (e sp v : Bool) :
    (busy Request.blank).inFlight = some Request.blank ∧ withinMax (lenmaxOf Config.params) Request.blank.count ∧
      withinMax (lenmaxOf Config.params) Request.blank.samples.length ∧
      signalsFit Request.blank.count [supplied sp Request.blank.sop, supplied e Request.blank.eop] ∧
      signalsFit Request.blank.samples.length
        [supplied v Request.blank.valid, supplied sp Request.blank.sop, supplied e Request.blank.eop] := by
  refine ⟨rfl, withinMax_least (by decide), withinMax_least (by decide), ?_, ?_⟩ <;>
    (cases e <;> cases sp <;> cases v <;> simp [signalsFit, supplied, Request.blank])

/-- The same on the ten samples of vector S5, for every instance that admits ten. -/
theorem witness_packets_frame (e sp v : Bool) (h : withinMax (lenmaxOf Config.params) 10) :
    (busy frame).inFlight = some frame ∧ withinMax (lenmaxOf Config.params) frame.count ∧
      frame.count = frame.samples.length ∧
      signalsFit frame.count [supplied sp frame.sop, supplied e frame.eop] ∧
      signalsFit frame.samples.length [supplied v frame.valid, supplied sp frame.sop, supplied e frame.eop] := by
  refine ⟨rfl, h, rfl, ?_, ?_⟩ <;> (cases e <;> cases sp <;> cases v <;> simp [signalsFit, supplied, frame])

/-- The renaming doubles each sample. No sample passes the checks in every instance; one sample with an empty validity
array fails them in every instance; the ten of vector S5 pass them in every instance that admits ten. -/
theorem witness_FiltersTreatElementsAsOpaque :
    (∀ r : Request, (busy { r with samples := r.samples.map (2 * ·) }).inFlight =
        some { r with samples := r.samples.map (2 * ·) }) ∧
      (withinMax (lenmaxOf Config.params) Request.blank.samples.length ∧
        signalsFit Request.blank.samples.length [supplied true Request.blank.valid, supplied false [], supplied false []]) ∧
      ¬ (withinMax (lenmaxOf Config.params) 1 ∧ signalsFit 1 [supplied true [], supplied false [], supplied false []]) ∧
      (withinMax (lenmaxOf Config.params) 10 → withinMax (lenmaxOf Config.params) frame.samples.length ∧
        signalsFit frame.samples.length [supplied true frame.valid, supplied true frame.sop, supplied true frame.eop]) := by
  refine ⟨fun _ => rfl, ⟨withinMax_least (by decide), ?_⟩, fun h => ?_, fun h => ⟨h, ?_⟩⟩
  · simp [signalsFit, supplied, Request.blank]
  · simpa [signalsFit, supplied] using h.2
  · simp [signalsFit, supplied, frame]

theorem witness_WrongSignalLengthRaisesLengthMismatch :
    (busy { Request.blank with valid := [true], eop := [true] }).inFlight =
        some { Request.blank with valid := [true], eop := [true] } ∧
      withinMax (lenmaxOf Config.params) 0 ∧
      ¬ signalsFit 0 [supplied false [], supplied true [true]] ∧
      ¬ signalsFit 0 [supplied true [true], supplied false [], supplied false []] := by
  refine ⟨rfl, withinMax_least (by decide), ?_, ?_⟩ <;> simp [signalsFit, supplied]

/-- V7.5, in an instance that admits two. -/
theorem witness_TooLongRaisesConfigurationErrorFirst :
    ¬ withinMax (lenmaxOf { unbounded 0 .halfUp with lenmax := some 2 }) 3 ∧
      serveFiltAll false false true { unbounded 0 .halfUp with lenmax := some 2 }
          { Request.blank with samples := [1, 2, 3], valid := [true] } =
        faulted .configurationError (.operand .count) := by
  exact ⟨by simp [withinMax, lenmaxOf], by decide⟩

theorem lanes_ok {P : Params} {r : Request} (h1 : r.lanes = 1) (h2 : 1 ≤ r.sampleBits) (h3 : r.sampleBits ≤ 32) :
    legalLanes P r := by
  refine ⟨by omega, h2, withinMax_least ?_, width_ok ?_⟩
  · simp [nmaxOf, h1]
  · simp [h1]; omega

theorem witness_LaneDemuxSerialFlattensLanes :
    (busy { withLanes 1 8 with words := [0x1AB] }).inFlight = some { withLanes 1 8 with words := [0x1AB] } ∧
      legalLanes Config.params { withLanes 1 8 with words := [0x1AB] } := ⟨rfl, lanes_ok rfl (by decide) (by decide)⟩

theorem witness_LaneDemuxParallelGathersStreams :
    (busy { withLanes 1 32 with words := [5, 6] }).inFlight = some { withLanes 1 32 with words := [5, 6] } ∧
      legalLanes Config.params { withLanes 1 32 with words := [5, 6] } := ⟨rfl, lanes_ok rfl (by decide) (by decide)⟩

theorem witness_LaneMuxSerialPacksWords :
    (busy { withLanes 1 8 with flat := [0x1AA, 3] }).inFlight = some { withLanes 1 8 with flat := [0x1AA, 3] } ∧
      legalLanes Config.params { withLanes 1 8 with flat := [0x1AA, 3] } ∧ 2 % 1 = 0 :=
  ⟨rfl, lanes_ok rfl (by decide) (by decide), by decide⟩

theorem witness_LaneMuxParallelPacksWords :
    (busy { withLanes 1 8 with streams := [[1, 2]] }).inFlight = some { withLanes 1 8 with streams := [[1, 2]] } ∧
      legalLanes Config.params { withLanes 1 8 with streams := [[1, 2]] } ∧
      ∀ stream ∈ ([[1, 2]] : List (List Int)), stream.length = 2 :=
  ⟨rfl, lanes_ok rfl (by decide) (by decide), by decide⟩

/-- Four lanes of 8 bits, for every instance that admits four lanes. -/
theorem witness_lanes_four (h : withinMax (nmaxOf Config.params) 4) :
    legalLanes Config.params
      { withLanes 4 8 with
        words := [0xDDCCBBAA]
        flat := [1, 2, 3, 4]
        streams := [[1], [2], [3], [4]] } :=
  ⟨by decide, by decide, h, width_ok (by decide)⟩

/-- One lane: no streams at all are too few. Two lanes (vectors V6.14, V6.15), in an instance without maxima. -/
theorem witness_RaggedLanesRaiseLengthMismatch :
    legalLanes Config.params (withLanes 1 8) ∧ (withLanes 1 8).streams.length ≠ (withLanes 1 8).lanes.toNat ∧
      legalLanes (unbounded 0 .halfUp) { withLanes 2 8 with flat := [1, 2, 3], streams := [[1, 2], [3]] } ∧
      [1, 2, 3].length % 2 ≠ 0 ∧ ¬ ∃ len, ∀ stream ∈ ([[1, 2], [3]] : List (List Int)), stream.length = len :=
  ⟨lanes_ok rfl (by decide) (by decide), by decide,
    ⟨by decide, by decide, fun _ h => by simp [unbounded, nmaxOf] at h, width_ok (by decide)⟩, by decide,
    by rintro ⟨len, h⟩; simp at h; omega⟩

/-- The hypotheses of all three clauses, by one request. -/
theorem witness_LanePackingInverse :
    legalLanes Config.params
        { withLanes 1 8 with
          flat := [0, 255]
          streams := [[0, 255]]
          words := [0, 255] } ∧
      (∀ x ∈ ([0, 255] : List Int), 0 ≤ x ∧ x < 2 ^ 8) ∧
      (∀ x ∈ ([0, 255] : List Int), 0 ≤ x ∧ x < 2 ^ (1 * 8)) ∧
      ∀ stream ∈ ([[0, 255]] : List (List Int)), stream.length = 2 ∧ ∀ x ∈ stream, 0 ≤ x ∧ x < 2 ^ 8 :=
  ⟨lanes_ok rfl (by decide) (by decide), by decide, by decide, by decide⟩

theorem witness_BadLaneLayoutRaisesInOrder :
    (busy (withLanes 0 0)).inFlight = some (withLanes 0 0) ∧ (withLanes 0 0).lanes < 1 ∧
      (busy (withLanes 1 0)).inFlight = some (withLanes 1 0) ∧ 1 ≤ (withLanes 1 0).lanes ∧
      ¬ legalLaneWidths Config.params (withLanes 1 0) :=
  ⟨rfl, by decide, rfl, by decide, fun h => by simp [legalLaneWidths, withLanes] at h⟩

end Sys2Proof.Tests
end

section
/-!
PROOFS. The statement of 00_scope.md: every operation answers, and the maxima of an instance are only guards (rule R6,
92_eei_decisions.md D12). The idea: an operation answers its checks and one result, the maxima occur in the checks alone,
and no check raises `OK`; so an `OK` response is that result.
-/

namespace Sys2Proof.Machine

/-! ### The operations by their serve functions -/

/-- Every arm of `exec` serves the request with its operation's response. -/
theorem exec_eq_serve_responseOf (i : Instr) (s : State) : exec i s = serve (fun P => responseOf P i) s := by
  cases i <;> rfl

theorem exec_of_request (i : Instr) {s : State} {r : Request} (h : s.inFlight = some r) :
    exec i s = .next (delivered (responseOf Config.params i r)) := by
  rw [exec_eq_serve_responseOf, serve_of_request h]

/-! ### Checks raise faults, never `OK` -/

/-- What the check raises, if anything, is a fault (60_exceptions.md rule R211). -/
def neverRaisesOk (c : Option Raise) : Prop := ∀ e, c = some e → e.status ≠ .ok

@[simp] theorem neverRaisesOk_none : neverRaisesOk none := nofun

theorem neverRaisesOk_checkCode (r : Request) (code : Int) (n : OperandName) : neverRaisesOk (checkCode r code n) :=
  fun _ h => by simp [checkCode_status h]

theorem neverRaisesOk_checkExpRange (exp : Nat) : neverRaisesOk (checkExpRange exp) := by
  intro e h
  unfold checkExpRange at h
  split at h <;> cases h
  simp

theorem neverRaisesOk_failIf {st : Status} (hst : st ≠ .ok) (bad : Bool) (n : OperandName) :
    neverRaisesOk (failIf bad st n) :=
  fun _ h => by rwa [(failIf_eq_some h).2]

theorem neverRaisesOk_of_mem_checkFixedFormat {P : Params} {complex : Bool} {r : Request} :
    ∀ c ∈ checkFixedFormat P complex r, neverRaisesOk c :=
  fun _ hc _ he => by simp [checkFixedFormat_status (he ▸ hc)]

theorem neverRaisesOk_of_mem_checkWidths {P : Params} {r : Request} : ∀ c ∈ checkWidths P r, neverRaisesOk c :=
  fun _ hc _ he => by simp [checkWidths_status (he ▸ hc)]

theorem neverRaisesOk_of_mem_checkLaneLayout {P : Params} {r : Request} :
    ∀ c ∈ checkLaneLayout P r, neverRaisesOk c :=
  fun _ hc _ he => by rcases checkLaneLayout_status (he ▸ hc) with h | h <;> simp [h]

theorem neverRaisesOk_of_mem_checkPackets {P : Params} {n : Nat} {valid sop eop : Option (List Bool)} :
    ∀ c ∈ checkPackets P n valid sop eop, neverRaisesOk c :=
  fun _ hc _ he => by rcases checkPackets_status (he ▸ hc) with h | h <;> simp [h]

/-- An `OK` answer is the whole result: its checks could only have raised a fault. -/
theorem answer_eq_okResponse {checks : List (Option Raise)} {x : Result} (hc : ∀ c ∈ checks, neverRaisesOk c)
    (h : (answer checks x).status = .ok) : answer checks x = okResponse x := by
  rcases answer_cases checks x with ⟨-, hx⟩ | ⟨e, he, hx⟩
  · exact hx
  · rw [hx, faultResponse_status] at h
    exact absurd h (hc _ he e rfl)

/-! ### What an operation reads of the parameters -/

/-- An operation answers its checks, which raise only faults, and one result. The checks may read every parameter, the
result only `EXP_BIAS` (`ENC_FLT`) and `ENC_TIE` (`ENC_FIX`). -/
theorem responseOf_eq_answer (i : Instr) (r : Request) :
    ∃ x : Nat → TieRule → Result, ∀ P : Params, ∃ checks : List (Option Raise),
      (∀ c ∈ checks, neverRaisesOk c) ∧ responseOf P i r = answer checks (x P.expBias P.encTie) := by
  cases i with
  | decFix => exact ⟨fun _ _ => _, fun P => ⟨_, neverRaisesOk_of_mem_checkFixedFormat, rfl⟩⟩
  | decCfix c => exact ⟨fun _ _ => _, fun P => ⟨_, neverRaisesOk_of_mem_checkFixedFormat, rfl⟩⟩
  | encFix =>
    exact ⟨fun _ tie => .codes
        (encodeFixed tie (isSigned r) (magnitudeBits r) r.fracBits.toNat (sampleRe r.sample))
        (encodeFixed tie (isSigned r) (magnitudeBits r) r.fracBits.toNat (sampleIm r.sample)),
      fun P => ⟨_, neverRaisesOk_of_mem_checkFixedFormat, rfl⟩⟩
  | packFix c =>
    refine ⟨fun _ _ => _, fun P => ⟨_, List.forall_mem_append.2 ⟨neverRaisesOk_of_mem_checkFixedFormat, ?_⟩, rfl⟩⟩
    cases c <;> simp [neverRaisesOk_checkCode]
  | decFlt => exact ⟨fun _ _ => _, fun P => ⟨[], nofun, rfl⟩⟩
  | encFlt =>
    refine ⟨fun bias _ => .word fltBits (floatWord (packedExp bias r.realCode r.imagCode)
        (mantissa (expShared r.realCode r.imagCode) r.realCode)
        (mantissa (expShared r.realCode r.imagCode) r.imagCode)),
      fun P => ⟨_, List.forall_mem_append.2 ⟨neverRaisesOk_of_mem_checkFixedFormat, ?_⟩, rfl⟩⟩
    simp [neverRaisesOk_checkCode, neverRaisesOk_checkExpRange]
  | rndFix w h => exact ⟨fun _ _ => _, fun P => ⟨_, neverRaisesOk_of_mem_checkWidths, rfl⟩⟩
  | satFix => exact ⟨fun _ _ => _, fun P => ⟨_, neverRaisesOk_of_mem_checkWidths, rfl⟩⟩
  | pktRanges e sp => exact ⟨fun _ _ => _, fun P => ⟨_, neverRaisesOk_of_mem_checkPackets, rfl⟩⟩
  | filtAll e sp v => exact ⟨fun _ _ => _, fun P => ⟨_, neverRaisesOk_of_mem_checkPackets, rfl⟩⟩
  | filtList e sp v => exact ⟨fun _ _ => _, fun P => ⟨_, neverRaisesOk_of_mem_checkPackets, rfl⟩⟩
  | filtOne e sp v => exact ⟨fun _ _ => _, fun P => ⟨_, neverRaisesOk_of_mem_checkPackets, rfl⟩⟩
  | laneDemuxSer => exact ⟨fun _ _ => _, fun P => ⟨_, neverRaisesOk_of_mem_checkLaneLayout, rfl⟩⟩
  | laneDemuxPar => exact ⟨fun _ _ => _, fun P => ⟨_, neverRaisesOk_of_mem_checkLaneLayout, rfl⟩⟩
  | laneMuxSer =>
    refine ⟨fun _ _ => _, fun P => ⟨_, List.forall_mem_append.2 ⟨neverRaisesOk_of_mem_checkLaneLayout, ?_⟩, rfl⟩⟩
    simp [checkFlat, neverRaisesOk_failIf]
  | laneMuxPar =>
    refine ⟨fun _ _ => _, fun P => ⟨_, List.forall_mem_append.2 ⟨neverRaisesOk_of_mem_checkLaneLayout, ?_⟩, rfl⟩⟩
    simp [checkStreamCount, checkStreamLengths, neverRaisesOk_failIf]

/-- An operation's `OK` response is one function of the request, `EXP_BIAS` and `ENC_TIE`. -/
theorem responseOf_eq_okResponse (i : Instr) (r : Request) :
    ∃ x : Nat → TieRule → Result, ∀ P : Params, (responseOf P i r).status = .ok →
      responseOf P i r = okResponse (x P.expBias P.encTie) := by
  obtain ⟨x, hx⟩ := responseOf_eq_answer i r
  refine ⟨x, fun P hok => ?_⟩
  obtain ⟨checks, hc, hP⟩ := hx P
  rw [hP] at hok ⊢
  exact answer_eq_okResponse hc hok

/-- Settles O11: the first half by the arms of `exec`, the second because an `OK` response reads no maximum. -/
theorem maximaAreOnlyGuards : Obligations.MaximaAreOnlyGuards := by
  unfold Obligations.MaximaAreOnlyGuards
  refine ⟨fun i s r h => exec_of_request i h, fun i P Q r hbias htie hP hQ => ?_⟩
  obtain ⟨x, hx⟩ := responseOf_eq_okResponse i r
  rw [hx P hP, hx Q hQ, hbias, htie]

end Sys2Proof.Machine
end

section
/-!
PROOFS. The statements of 10_state.md: what a step does with the request in flight (rules R20, R30), that every
response keeps the invariant (rule R28), and that the high bits of an operand are not looked at (rule R29). The idea: a
step is its response, which is a function of the request; a response is a fault, or an `OK` whose checks all passed, and
the bound of a result needs at most what those checks say.
-/

namespace Sys2Proof.Machine

/-! ### The step by its response -/

/-- The response a step hands out for a request (30_encoding.md rule R74, 10_state.md rule R30). -/
def stepResponse (r : Request) : Response :=
  match decode r.opd with
  | .error why => illegalDescriptor why
  | .ok i => responseOf Config.params i r

theorem stepResponse_of_legal {r : Request} {i : Instr} (h : decode r.opd = .ok i) :
    stepResponse r = responseOf Config.params i r := by
  simp [stepResponse, h]

theorem stepResponse_of_illegal {r : Request} {why : DecodeReject} (h : decode r.opd = .error why) :
    stepResponse r = illegalDescriptor why := by
  simp [stepResponse, h]

theorem step_of_idle {s : State} (h : s.inFlight = none) : step s = .next s := by
  simp [step, h]

theorem step_of_legal {s : State} {r : Request} {i : Instr} (h : s.inFlight = some r) (hd : decode r.opd = .ok i) :
    step s = exec i s := by
  simp [step, h, hd]

theorem step_of_illegal {s : State} {r : Request} {why : DecodeReject} (h : s.inFlight = some r)
    (hd : decode r.opd = .error why) : step s = .next (delivered (illegalDescriptor why)) := by
  simp [step, h, hd, serve_of_request h]

/-- All that a step can do with a request in flight. -/
theorem step_of_request {s : State} {r : Request} (h : s.inFlight = some r) :
    step s = .next (delivered (stepResponse r)) := by
  cases hd : decode r.opd with
  | error why => rw [step_of_illegal h hd, stepResponse_of_illegal hd]
  | ok i => rw [step_of_legal h hd, exec_of_request i h, stepResponse_of_legal hd]

/-- All that a step can do: nothing when idle, else it hands out the response to the request in flight. -/
theorem step_next {s t : State} (h : step s = .next t) :
    t = s ∨ ∃ r, s.inFlight = some r ∧ t = delivered (stepResponse r) := by
  cases hs : s.inFlight with
  | none => rw [step_of_idle hs] at h; exact .inl (Host.Outcome.next.inj h).symm
  | some r => rw [step_of_request hs] at h; exact .inr ⟨r, rfl, (Host.Outcome.next.inj h).symm⟩

/-- Settles O4: the legal case of `step`. -/
theorem stepRunsDecodedOperation : Obligations.StepRunsDecodedOperation := by
  unfold Obligations.StepRunsDecodedOperation
  exact fun _ _ _ h hd => step_of_legal h hd

/-- Settles O7: both sides are the response to the same request. -/
theorem stepDependsOnlyOnRequest : Obligations.StepDependsOnlyOnRequest := by
  unfold Obligations.StepDependsOnlyOnRequest
  intro s t r hs ht
  refine ⟨?_, fun i => ?_⟩
  · rw [step_of_request hs, step_of_request ht]
  · rw [exec_of_request i hs, exec_of_request i ht]

/-! ### The two kinds of response -/

/-- An answer is `OK` exactly when every check passes; the result is then the whole one. -/
theorem answer_eq_okResponse_iff {checks : List (Option Raise)} {x y : Result} :
    answer checks x = okResponse y ↔ (∀ c ∈ checks, c = none) ∧ x = y := by
  constructor
  · intro h
    rcases answer_cases checks x with ⟨hc, hx⟩ | ⟨e, -, hx⟩ <;> rw [hx] at h
    · exact ⟨hc, by simpa [okResponse] using h⟩
    · simp [faultResponse, okResponse] at h
  · rintro ⟨hc, rfl⟩
    exact answer_ok hc

/-- Every response of an operation is an `OK` with a result, or a fault (rule R30). -/
theorem responseOf_ok_or_fault (P : Params) (i : Instr) (r : Request) :
    (∃ x, responseOf P i r = okResponse x) ∨ ∃ e, e.status ≠ .ok ∧ responseOf P i r = faultResponse e := by
  obtain ⟨x, hx⟩ := responseOf_eq_answer i r
  obtain ⟨checks, hc, hP⟩ := hx P
  rw [hP]
  rcases answer_cases checks (x P.expBias P.encTie) with ⟨-, h⟩ | ⟨e, he, h⟩
  · exact .inl ⟨_, h⟩
  · exact .inr ⟨e, hc _ he e rfl, h⟩

theorem responseWf_okResponse (x : Result) : responseWf (okResponse x) = resultWf x := by
  simp [responseWf, okResponse]

theorem responseWf_faultResponse {e : Raise} (h : e.status ≠ .ok) : responseWf (faultResponse e) = true := by
  obtain ⟨status, info⟩ := e
  cases status with
  | ok => exact absurd rfl h
  | _ => rfl

theorem responseWf_illegalDescriptor (why : DecodeReject) : responseWf (illegalDescriptor why) = true :=
  responseWf_faultResponse (by simp)

/-- A well-formed response has a result iff its status is `OK` (rule R30). -/
theorem result_isSome_iff_of_responseWf {x : Response} (h : responseWf x = true) :
    x.result.isSome = true ↔ x.status = .ok := by
  obtain ⟨status, result, info⟩ := x
  cases status <;> cases result <;> simp_all [responseWf]

/-! ### The range of each kind of result -/

theorem allBelow_iff {w : Nat} {xs : List Nat} : allBelow w xs = true ↔ ∀ x ∈ xs, x < 2 ^ w := by
  simp [allBelow]

theorem and_mask_lt (p w : Nat) : p &&& mask w < 2 ^ w := by
  rw [mask_and]; exact Nat.mod_lt _ (by positivity)

theorem sint_bounds {w p : Nat} (hw : 1 ≤ w) (hp : p < 2 ^ w) : -2 ^ (w - 1) ≤ sint w p ∧ sint w p < 2 ^ (w - 1) := by
  rw [sint_eq_bmod hw hp]; exact bmod_two_pow_bounds hw p

/-- A decoded mantissa lies in `-4096 .. 4095` (40_bitfield_codec.md rule R99). -/
theorem mantissaReading_bounds (p : Nat) :
    -4096 ≤ sint manBits (p &&& mask manBits) ∧ sint manBits (p &&& mask manBits) ≤ 4095 := by
  obtain ⟨hlo, hhi⟩ := sint_bounds (w := manBits) (by decide) (and_mask_lt p manBits)
  norm_num [manBits] at hlo hhi ⊢
  omega

theorem checkExpRange_eq_none {exp : Nat} : checkExpRange exp = none ↔ exp < 2 ^ expBits := by
  have : 0 < 2 ^ expBits := by positivity
  unfold checkExpRange
  split <;> simp <;> omega

/-- A block-float word has `FLT_BITS` bits when its exponent fits its field (30_encoding.md rule R62). -/
theorem floatWord_lt {exp : Nat} (h : exp < 2 ^ expBits) (manI manQ : Int) :
    floatWord exp manI manQ < 2 ^ fltBits := by
  have hI := tc_lt manBits manI
  have hQ := tc_lt manBits manQ
  unfold floatWord
  refine Nat.or_lt_two_pow (Nat.or_lt_two_pow ?_ ?_) ?_ <;>
    simp only [Nat.shiftLeft_eq, fltBits, expBits, manBits] at * <;> omega

theorem increment_lt (outW v : Nat) : increment outW v < 2 ^ outW := Nat.mod_lt _ (by positivity)

/-- Dropping the low bits of a pattern leaves a pattern of the remaining width. -/
theorem shiftRight_lt {inW outW p : Nat} (h : outW ≤ inW) (hp : p < 2 ^ inW) : p >>> (inW - outW) < 2 ^ outW := by
  rw [Nat.shiftRight_eq_div_pow, Nat.div_lt_iff_lt_mul (by positivity), ← pow_add]
  rwa [Nat.add_sub_cancel' h]

theorem roundNarrow_lt {inW outW p : Nat} (up sat : Bool) (h : outW ≤ inW) (hp : p < 2 ^ inW) :
    roundNarrow up sat inW outW p < 2 ^ outW := by
  have hkept := shiftRight_lt h hp
  have hinc := increment_lt outW (p >>> (inW - outW))
  unfold roundNarrow
  split_ifs <;> assumption

/-- `RND_FIX` gives a pattern of `out_width` bits (42_requantizer.md rule R141). -/
theorem roundFixed_lt {inW outW p : Nat} (up sat : Bool) (hp : p < 2 ^ inW) :
    roundFixed up sat inW outW p < 2 ^ outW := by
  unfold roundFixed
  split
  · exact tc_lt _ _
  · exact roundNarrow_lt up sat (by omega) hp

theorem saturateNarrow_lt {inW outW : Nat} (p : Nat) (h : 1 ≤ outW) : saturateNarrow inW outW p < 2 ^ outW := by
  have hpow : 2 ^ outW = 2 * 2 ^ (outW - 1) := by rw [← pow_succ', Nat.sub_add_cancel h]
  have hpos : 0 < 2 ^ (outW - 1) := by positivity
  have hslice : slice p (outW - 1) 0 < 2 ^ outW := by
    rw [slice_zero, Nat.sub_add_cancel h]; exact Nat.mod_lt _ (by positivity)
  unfold saturateNarrow
  split_ifs <;> omega

/-- `SAT_FIX` gives a pattern of `out_width` bits (42_requantizer.md rule R146). -/
theorem saturateFixed_lt {inW outW : Nat} (p : Nat) (h : 1 ≤ outW) : saturateFixed inW outW p < 2 ^ outW := by
  unfold saturateFixed
  split
  · exact tc_lt _ _
  · exact saturateNarrow_lt p h

/-- The ranges found from `i` on are ordered from `i` on (43_packetizer.md rule R163). -/
theorem rangesOrdered_of_packetChain {sop eop : Option (List Bool)} {n i : Nat} {rs : List PacketRange}
    (h : packetChain sop eop n i rs) : rangesOrdered i rs = true := by
  induction rs generalizing i with
  | nil => rfl
  | cons p rest ih =>
    obtain ⟨hi, hs, ht, hc⟩ := h
    obtain ⟨hstart, hlt⟩ := startsAt_bounds hs hi
    obtain ⟨hstop, -⟩ := stopsAt_bounds ht hlt
    simp [rangesOrdered, hstart, hstop, ih hc]

theorem demuxSerial_allBelow (n sb : Nat) (words : List Int) : allBelow sb (demuxSerial n sb words) = true := by
  simp only [allBelow_iff, demuxSerial, lanesOf, List.mem_flatMap, List.mem_map]
  rintro _ ⟨word, -, i, -, rfl⟩
  exact laneOf_lt _ _ _

/-- A stream of `LANE_DEMUX.PAR` has one element below `2^sample_bits` for each word (44_lane_mux.md rule R192). -/
theorem demuxParallel_stream {n sb : Nat} {words : List Int} {xs : List Nat} (h : xs ∈ demuxParallel n sb words) :
    allBelow sb xs = true ∧ xs.length = words.length := by
  obtain ⟨i, -, rfl⟩ := List.mem_map.1 h
  refine ⟨allBelow_iff.2 fun x hx => ?_, by simp⟩
  obtain ⟨word, -, rfl⟩ := List.mem_map.1 hx
  exact laneOf_lt _ _ _

/-- The streams of `LANE_DEMUX.PAR` have equal lengths (44_lane_mux.md rule R192). -/
theorem demuxParallel_length_eq (n sb : Nat) (words : List Int) :
    ∀ xs ∈ demuxParallel n sb words, xs.length = ((demuxParallel n sb words).headD []).length := by
  have hlen : ∀ xs ∈ demuxParallel n sb words, xs.length = words.length := fun _ h => (demuxParallel_stream h).2
  cases h : demuxParallel n sb words with
  | nil => simp
  | cons ys rest =>
    rw [h] at hlen
    exact fun xs hxs => (hlen xs hxs).trans (hlen ys List.mem_cons_self).symm

theorem muxSerial_allBelow (n sb : Nat) (flat : List Int) : allBelow (n * sb) (muxSerial n sb flat) = true := by
  simp only [allBelow_iff, muxSerial, List.mem_map]
  rintro _ ⟨w, -, rfl⟩
  exact packLanes_lt _ _ _

theorem muxParallel_allBelow (n sb : Nat) (streams : List (List Int)) :
    allBelow (n * sb) (muxParallel n sb streams) = true := by
  simp only [allBelow_iff, muxParallel, List.mem_map]
  rintro _ ⟨w, -, rfl⟩
  exact packLanes_lt _ _ _

/-! ### The invariant -/

/-- A result that an operation hands out lies in its range. Two operations need a check that passed: `ENC_FLT` that the
exponent fits, `SAT_FIX` that `out_width` is at least 1. -/
theorem resultWf_of_responseOf {P : Params} {i : Instr} {r : Request} {x : Result}
    (h : responseOf P i r = okResponse x) : resultWf x = true := by
  cases i with
  | decFix | decCfix | encFix | filtAll | filtOne => obtain ⟨-, rfl⟩ := answer_eq_okResponse_iff.1 h; rfl
  | packFix c =>
    obtain ⟨-, rfl⟩ := answer_eq_okResponse_iff.1 h
    cases c with
    | false => simp [resultWf, tc_lt]
    | true => simp [resultWf, packComplex_lt]
  | decFlt =>
    simp only [responseOf, serveDecFlt, answer_eq_okResponse_iff] at h
    obtain ⟨-, rfl⟩ := h
    have hexp := and_mask_lt (tc fltBits r.raw >>> (2 * manBits)) expBits
    simp only [resultWf, Bool.and_eq_true, decide_eq_true_eq]
    exact ⟨⟨⟨mantissaReading_bounds _, (mantissaReading_bounds _).1⟩, (mantissaReading_bounds _).2⟩, hexp⟩
  | encFlt =>
    obtain ⟨hc, rfl⟩ := answer_eq_okResponse_iff.1 h
    have hexp : packedExp P.expBias r.realCode r.imagCode < 2 ^ expBits :=
      checkExpRange_eq_none.1 (hc _ (by simp))
    simp [resultWf, floatWord_lt hexp]
  | rndFix w hh =>
    obtain ⟨-, rfl⟩ := answer_eq_okResponse_iff.1 h
    simp [resultWf, roundFixed_lt _ _ (tc_lt _ _)]
  | satFix =>
    obtain ⟨hc, rfl⟩ := answer_eq_okResponse_iff.1 h
    obtain ⟨-, hout, -⟩ := checkWidths_passes.1 hc
    simp [resultWf, saturateFixed_lt _ (show 1 ≤ r.outWidth.toNat by omega)]
  | pktRanges e sp =>
    obtain ⟨-, rfl⟩ := answer_eq_okResponse_iff.1 h
    exact rangesOrdered_of_packetChain (packetRanges_chain _ _ _)
  | filtList e sp v =>
    obtain ⟨-, rfl⟩ := answer_eq_okResponse_iff.1 h
    exact List.all_eq_true.2 fun sub hsub => (List.mem_filter.1 hsub).2
  | laneDemuxSer =>
    obtain ⟨-, rfl⟩ := answer_eq_okResponse_iff.1 h
    exact demuxSerial_allBelow _ _ _
  | laneDemuxPar =>
    obtain ⟨-, rfl⟩ := answer_eq_okResponse_iff.1 h
    simp only [resultWf, Bool.and_eq_true, List.all_eq_true, decide_eq_true_eq]
    exact ⟨fun _ hxs => (demuxParallel_stream hxs).1, demuxParallel_length_eq _ _ _⟩
  | laneMuxSer =>
    obtain ⟨-, rfl⟩ := answer_eq_okResponse_iff.1 h
    exact muxSerial_allBelow _ _ _
  | laneMuxPar =>
    obtain ⟨-, rfl⟩ := answer_eq_okResponse_iff.1 h
    exact muxParallel_allBelow _ _ _

theorem responseOf_wf (P : Params) (i : Instr) (r : Request) : responseWf (responseOf P i r) = true := by
  rcases responseOf_ok_or_fault P i r with ⟨x, h⟩ | ⟨e, he, h⟩ <;> rw [h]
  · rw [responseWf_okResponse, resultWf_of_responseOf h]
  · exact responseWf_faultResponse he

theorem stepResponse_wf (r : Request) : responseWf (stepResponse r) = true := by
  cases hd : decode r.opd with
  | error why => rw [stepResponse_of_illegal hd, responseWf_illegalDescriptor]
  | ok i => rw [stepResponse_of_legal hd, responseOf_wf]

theorem stateInv_delivered (x : Response) : stateInv (delivered x) = responseWf x := by
  simp [stateInv]

/-- Settles O8: an idle step keeps the response, every other step replaces it by a well-formed one. -/
theorem stepKeepsResponseInvariant : Obligations.StepKeepsResponseInvariant := by
  unfold Obligations.StepKeepsResponseInvariant
  intro s t hinv hstep
  rcases step_next hstep with rfl | ⟨r, -, rfl⟩
  · exact hinv
  · rw [stateInv_delivered, stepResponse_wf]

/-- Settles O6: the response handed out is well-formed. -/
theorem oneRequestOneResponse : Obligations.OneRequestOneResponse := by
  unfold Obligations.OneRequestOneResponse
  exact fun s r h => ⟨stepResponse r, step_of_request h, result_isSome_iff_of_responseWf (stepResponse_wf r)⟩

/-! ### Operands are read modulo their width -/

theorem decodeComplex_congr {signed : Bool} {T f : Nat} {v v' : Int} (h : v % 2 ^ (2 * T) = v' % 2 ^ (2 * T)) :
    decodeComplex signed T f v = decodeComplex signed T f v' := by
  simp only [decodeComplex, tc_congr h]

theorem exec_congr_of_responseOf {i : Instr} {s t : State} {r q : Request} (hs : s.inFlight = some r)
    (ht : t.inFlight = some q) (h : responseOf Config.params i r = responseOf Config.params i q) :
    exec i s = exec i t := by
  rw [exec_of_request i hs, exec_of_request i ht, h]

/-- The request with other values of the two pattern operands, `raw` and `value`; no check reads them. -/
def Request.withPatterns (r : Request) (raw' value' : Int) : Request := { r with raw := raw', value := value' }

section
variable {P : Params} {r : Request} {raw' value' : Int}

theorem serveDecFix_withPatterns (h : r.raw % 2 ^ formatWidth r = raw' % 2 ^ formatWidth r) :
    serveDecFix P r = serveDecFix P (r.withPatterns raw' value') := by
  unfold serveDecFix
  rw [decodeFixed_congr h]
  rfl

theorem serveDecCfix_withPatterns (h : r.raw % 2 ^ (2 * formatWidth r) = raw' % 2 ^ (2 * formatWidth r)) :
    serveDecCfix true P r = serveDecCfix true P (r.withPatterns raw' value') := by
  unfold serveDecCfix
  rw [decodeComplex_congr h]
  rfl

theorem serveDecFlt_withPatterns (h : r.raw % 2 ^ fltBits = raw' % 2 ^ fltBits) :
    serveDecFlt P r = serveDecFlt P (r.withPatterns raw' value') := by
  unfold serveDecFlt
  rw [tc_congr h]
  rfl

theorem serveSatFix_withPatterns (h : r.value % 2 ^ r.inWidth.toNat = value' % 2 ^ r.inWidth.toNat) :
    serveSatFix P r = serveSatFix P (r.withPatterns raw' value') := by
  unfold serveSatFix
  rw [tc_congr h]
  rfl

theorem serveRndFix_withPatterns (w hh : Bool) (h : r.value % 2 ^ r.inWidth.toNat = value' % 2 ^ r.inWidth.toNat) :
    serveRndFix w hh P r = serveRndFix w hh P (r.withPatterns raw' value') := by
  unfold serveRndFix
  rw [tc_congr h]
  rfl

end

/-- Without `C`, `DEC_CFIX` is `DEC_FIX` (40_bitfield_codec.md rule R92). -/
theorem serveDecCfix_false : serveDecCfix false = serveDecFix := rfl

/-- Settles O36: each decoder and requantizer reads its operand through `tc` at the operand's width. -/
theorem highOperandBitsAreIgnored : Obligations.HighOperandBitsAreIgnored := by
  unfold Obligations.HighOperandBitsAreIgnored
  intro s t r raw' value' hs ht
  refine ⟨fun h => ⟨?_, ?_⟩, fun h => ?_, fun h => ?_, fun h => ⟨?_, fun w hh => ?_⟩⟩ <;>
    refine exec_congr_of_responseOf hs ht ?_
  · exact serveDecFix_withPatterns h
  · simp only [responseOf, serveDecCfix_false]
    exact serveDecFix_withPatterns h
  · exact serveDecCfix_withPatterns h
  · exact serveDecFlt_withPatterns (P := Config.params) h
  · exact serveSatFix_withPatterns h
  · exact serveRndFix_withPatterns w hh h

end Sys2Proof.Machine
end

section
/-!
PROOFS. The statement of 20_memory.md: the elements of the data array are opaque to the Packetizer (rule R41). The idea:
the ranges and the checks read the number of samples only, and what is kept of a range commutes with renaming; so a
filter's answer to a renamed request has the same checks and the renamed result.
-/

namespace Sys2Proof.Machine

/-! ### The filters in closed form -/

section
variable {α : Type} {xs : List α} {valid : Option (List Bool)}

theorem rangeSamples_eq_validOnly_of_length (hv : ∀ bits, valid = some bits → bits.length = xs.length) :
    rangeSamples xs valid = validOnly xs valid :=
  funext fun p => rangeSamples_eq_validOnly xs valid p hv

theorem filterAll_eq_flatMap (hv : ∀ bits, valid = some bits → bits.length = xs.length) (rs : List PacketRange) :
    filterAll xs valid rs = rs.flatMap (validOnly xs valid) := by
  rw [filterAll, rangeSamples_eq_validOnly_of_length hv]

theorem filterList_eq_filter [DecidableEq α] (hv : ∀ bits, valid = some bits → bits.length = xs.length)
    (rs : List PacketRange) :
    filterList xs valid rs = (rs.map (validOnly xs valid)).filter fun sub => sub ≠ [] := by
  rw [filterList, rangeSamples_eq_validOnly_of_length hv]
  refine List.filter_congr fun sub _ => ?_
  cases sub <;> simp

theorem filterOne_eq_head (hv : ∀ bits, valid = some bits → bits.length = xs.length) (rs : List PacketRange) :
    filterOne xs valid rs = (rs.head?.map (validOnly xs valid)).getD [] := by
  cases rs with
  | nil => rfl
  | cons p rest => exact rangeSamples_eq_validOnly xs valid p hv

end

/-! ### Renaming the elements -/

section
variable {α β : Type} (f : α → β) (xs : List α) (valid : Option (List Bool)) (rs : List PacketRange)

theorem rangeSamples_map_eq_comp : rangeSamples (xs.map f) valid = List.map f ∘ rangeSamples xs valid :=
  funext fun p => rangeSamples_map f xs valid p

theorem filterAll_map : filterAll (xs.map f) valid rs = (filterAll xs valid rs).map f := by
  rw [filterAll, filterAll, rangeSamples_map_eq_comp, List.map_flatMap]
  rfl

/-- A sub-list is empty exactly when its renaming is, so the same ranges are dropped. -/
theorem filterList_map : filterList (xs.map f) valid rs = (filterList xs valid rs).map (List.map f) := by
  have hempty : (fun sub : List β => !sub.isEmpty) ∘ List.map f = fun sub => !sub.isEmpty :=
    funext fun sub => by simp
  rw [filterList, filterList, rangeSamples_map_eq_comp, ← List.map_map, List.filter_map, hempty]

theorem filterOne_map : filterOne (xs.map f) valid rs = (filterOne xs valid rs).map f := by
  cases rs with
  | nil => rfl
  | cons p rest => exact rangeSamples_map f xs valid p

end

/-! ### Requests with renamed samples -/

/-- The request with its samples renamed by `f`. -/
def Request.renamed (f : Int → Int) (r : Request) : Request := { r with samples := r.samples.map f }

section
variable (e sp v : Bool) (P : Params) (f : Int → Int) (r : Request)

theorem servePktRanges_renamed : servePktRanges e sp P (r.renamed f) = servePktRanges e sp P r := rfl

theorem filterRanges_renamed : filterRanges e sp (r.renamed f) = filterRanges e sp r := by
  simp [filterRanges, Request.renamed]

theorem checkFilter_renamed : checkFilter e sp v P (r.renamed f) = checkFilter e sp v P r := by
  simp [checkFilter, Request.renamed]

theorem serveFiltAll_renamed :
    serveFiltAll e sp v P (r.renamed f) = answer (checkFilter e sp v P r)
      (.samples ((filterAll r.samples (supplied v r.valid) (filterRanges e sp r)).map f)) := by
  rw [serveFiltAll, checkFilter_renamed, filterRanges_renamed, ← filterAll_map]
  rfl

theorem serveFiltList_renamed :
    serveFiltList e sp v P (r.renamed f) = answer (checkFilter e sp v P r)
      (.packets ((filterList r.samples (supplied v r.valid) (filterRanges e sp r)).map (List.map f))) := by
  rw [serveFiltList, checkFilter_renamed, filterRanges_renamed, ← filterList_map]
  rfl

theorem serveFiltOne_renamed :
    serveFiltOne e sp v P (r.renamed f) = answer (checkFilter e sp v P r)
      (.samples ((filterOne r.samples (supplied v r.valid) (filterRanges e sp r)).map f)) := by
  rw [serveFiltOne, checkFilter_renamed, filterRanges_renamed, ← filterOne_map]
  rfl

end

/-! ### Operands that pass the checks, and operands that fail one -/

/-- The filter checks pass exactly when the data is at most `LENMAX` long and every supplied signal has its length
(43_packetizer.md rule R161). -/
theorem checkFilter_passes {e sp v : Bool} {P : Params} {r : Request} :
    (∀ c ∈ checkFilter e sp v P r, c = none) ↔ withinMax (lenmaxOf P) r.samples.length ∧
      signalsFit r.samples.length [supplied v r.valid, supplied sp r.sop, supplied e r.eop] :=
  checkPackets_passes

/-- Where a check fails, the answer does not depend on the result. -/
theorem answer_congr_of_fails {checks : List (Option Raise)} (h : ¬ ∀ c ∈ checks, c = none) (x y : Result) :
    answer checks x = answer checks y := by
  cases hf : firstFailure checks with
  | none => exact absurd (firstFailure_eq_none.1 hf) h
  | some e => simp [answer, hf]

/-- Settles O44: the filters' checks are the same for the renamed request, and their results are renamed. -/
theorem filtersTreatElementsAsOpaque : Obligations.FiltersTreatElementsAsOpaque := by
  unfold Obligations.FiltersTreatElementsAsOpaque
  intro e sp v f s t r hs ht
  change t.inFlight = some (r.renamed f) at ht
  refine ⟨?_, fun hlen hfit => ?_, fun hbad i hi => ?_⟩
  · exact exec_congr_of_responseOf ht hs (servePktRanges_renamed e sp Config.params f r)
  · have hpass := checkFilter_passes.2 ⟨hlen, hfit⟩
    have hv : ∀ bits, supplied v r.valid = some bits → bits.length = r.samples.length :=
      fun bits h => hfit bits (by simp [h])
    refine ⟨filterRanges e sp r, _, _, _, packetRanges_chain _ _ _, filterAll_eq_flatMap hv _,
      filterList_eq_filter hv _, filterOne_eq_head hv _, ?_, ?_, ?_, ?_, ?_, ?_⟩
    · rw [exec_of_request _ hs, responseOf, serveFiltAll, answer_ok hpass]
    · rw [exec_of_request _ ht, responseOf, serveFiltAll_renamed, answer_ok hpass]
    · rw [exec_of_request _ hs, responseOf, serveFiltList, answer_ok hpass]
    · rw [exec_of_request _ ht, responseOf, serveFiltList_renamed, answer_ok hpass]
    · rw [exec_of_request _ hs, responseOf, serveFiltOne, answer_ok hpass]
    · rw [exec_of_request _ ht, responseOf, serveFiltOne_renamed, answer_ok hpass]
  · have hfail := mt checkFilter_passes.1 hbad
    refine exec_congr_of_responseOf ht hs ?_
    rcases hi with rfl | rfl | rfl
    · exact (serveFiltAll_renamed ..).trans (answer_congr_of_fails hfail _ _)
    · exact (serveFiltList_renamed ..).trans (answer_congr_of_fails hfail _ _)
    · exact (serveFiltOne_renamed ..).trans (answer_congr_of_fails hfail _ _)

end Sys2Proof.Machine
end

section
/-!
PROOFS. The statements of 30_encoding.md. The idea: a descriptor is its four fields (rule R71), so the encoder is a
function of the fields and the decoder inverts it row by row of the opcode map (rules R72, R73); what is illegal is then
what decodes to nothing (rule R74). For raw tokens (rule R66): the last digit of a number is its remainder, and reading
it onto the value of the digits before it undoes the division.
-/

namespace Sys2Proof

/-! ### A descriptor by its fields -/

theorem opField_eq_mod (d : Descriptor) : opField d = d.toNat % 32 :=
  Nat.and_two_pow_sub_one_eq_mod d.toNat 5

theorem modBit5_eq_decide (d : Descriptor) : modBit5 d = decide (d.toNat / 32 % 2 = 1) :=
  Nat.testBit_eq_decide_div_mod_eq

theorem modBit6_eq_decide (d : Descriptor) : modBit6 d = decide (d.toNat / 64 % 2 = 1) :=
  Nat.testBit_eq_decide_div_mod_eq

theorem modBit7_eq_decide (d : Descriptor) : modBit7 d = decide (d.toNat / 128 % 2 = 1) :=
  Nat.testBit_eq_decide_div_mod_eq

section
variable {op : Nat} (b7 b6 b5 : Bool)

theorem toNat_descriptorOf (h : op < 32) :
    (descriptorOf b7 b6 b5 op).toNat = 128 * b7.toNat + 64 * b6.toNat + 32 * b5.toNat + op := by
  have := b7.toNat_le
  have := b6.toNat_le
  have := b5.toNat_le
  rw [descriptorOf, BitVec.toNat_ofNat]
  omega

@[simp] theorem opField_descriptorOf (h : op < 32) : opField (descriptorOf b7 b6 b5 op) = op := by
  rw [opField_eq_mod, toNat_descriptorOf b7 b6 b5 h]
  omega

@[simp] theorem modBit5_descriptorOf (h : op < 32) : modBit5 (descriptorOf b7 b6 b5 op) = b5 := by
  rw [modBit5_eq_decide, toNat_descriptorOf b7 b6 b5 h]
  cases b5 <;> simp <;> omega

@[simp] theorem modBit6_descriptorOf (h : op < 32) : modBit6 (descriptorOf b7 b6 b5 op) = b6 := by
  have := b5.toNat_le
  rw [modBit6_eq_decide, toNat_descriptorOf b7 b6 b5 h]
  cases b6 <;> simp <;> omega

@[simp] theorem modBit7_descriptorOf (h : op < 32) : modBit7 (descriptorOf b7 b6 b5 op) = b7 := by
  have := b6.toNat_le
  have := b5.toNat_le
  rw [modBit7_eq_decide, toNat_descriptorOf b7 b6 b5 h]
  cases b7 <;> simp <;> omega

end

/-- No bit of a descriptor lies outside its fields (rule R71). -/
theorem descriptorOf_fields (d : Descriptor) :
    descriptorOf (modBit7 d) (modBit6 d) (modBit5 d) (opField d) = d := by
  apply BitVec.eq_of_toNat_eq
  have hd := d.isLt
  have hop : opField d < 32 := by rw [opField_eq_mod]; omega
  rw [toNat_descriptorOf _ _ _ hop, opField_eq_mod, modBit7_eq_decide, modBit6_eq_decide, modBit5_eq_decide]
  simp only [Bool.toNat, Bool.cond_decide]
  split_ifs <;> omega

/-! ### Decoding and encoding -/

theorem mustBeClear_eq_ok {bits : List Bool} {i j : Instr} :
    mustBeClear bits i = .ok j ↔ (∀ b ∈ bits, b = false) ∧ i = j := by
  unfold mustBeClear
  split <;> simp_all

theorem decodeLane_eq_ok {d : Descriptor} {serial parallel i : Instr} :
    decodeLane d serial parallel = .ok i ↔
      modBit7 d = false ∧ modBit6 d = false ∧ (if modBit5 d then parallel else serial) = i := by
  unfold decodeLane
  cases modBit7 d <;> cases modBit6 d <;> simp

theorem decode_encode (i : Instr) : decode (encode i) = .ok i := by
  cases i <;> simp [encode, decode, mustBeClear, decodeLane]

/-- A decoded operation holds every field of its descriptor: the free bits as its arguments, the others by its row. -/
theorem encode_eq_fields_of_decode {d : Descriptor} {i : Instr} (h : decode d = .ok i) :
    encode i = descriptorOf (modBit7 d) (modBit6 d) (modBit5 d) (opField d) := by
  unfold decode at h
  split at h
  -- the filters: all three modifier bits are free
  case h_10 hop | h_11 hop | h_12 hop => cases h; rw [hop]; rfl
  -- the lane operations
  case h_13 hop | h_14 hop =>
    obtain ⟨h7, h6, rfl⟩ := decodeLane_eq_ok.1 h
    rw [hop, h7, h6]
    cases modBit5 d <;> rfl
  -- an unused `OP`
  case h_15 => cases h
  -- the rows with bits that must be 0
  all_goals
    next hop =>
    obtain ⟨hclear, rfl⟩ := mustBeClear_eq_ok.1 h
    simp only [List.mem_cons, List.not_mem_nil, or_false, forall_eq_or_imp, forall_eq] at hclear
    simp [encode, hop, hclear]

theorem decode_eq_ok_iff {d : Descriptor} {i : Instr} : decode d = .ok i ↔ encode i = d := by
  constructor
  · intro h
    rw [encode_eq_fields_of_decode h, descriptorOf_fields]
  · rintro rfl
    exact decode_encode i

/-- Settles O2, by the fields of a descriptor. -/
theorem decodeAndEncodeAgree : Obligations.DecodeAndEncodeAgree := by
  unfold Obligations.DecodeAndEncodeAgree
  exact ⟨decode_encode, fun _ _ h => decode_eq_ok_iff.1 h⟩

/-- Settles O1: the decoder evaluated on each written-out word. -/
theorem mappedDescriptorsDecode : Obligations.MappedDescriptorsDecode := by
  unfold Obligations.MappedDescriptorsDecode
  decide

/-! ### Legal descriptors -/

/-- The lemmas of Laws/PerInstr.lean as one. -/
theorem encodedIsLegal (i : Instr) : Laws.EncodedIsLegal.Statement i := by
  cases i with
  | decFix => exact Laws.EncodedIsLegal.decFix
  | decCfix c => exact Laws.EncodedIsLegal.decCfix c
  | encFix => exact Laws.EncodedIsLegal.encFix
  | packFix c => exact Laws.EncodedIsLegal.packFix c
  | decFlt => exact Laws.EncodedIsLegal.decFlt
  | encFlt => exact Laws.EncodedIsLegal.encFlt
  | rndFix w h => exact Laws.EncodedIsLegal.rndFix w h
  | satFix => exact Laws.EncodedIsLegal.satFix
  | pktRanges e sp => exact Laws.EncodedIsLegal.pktRanges e sp
  | filtAll e sp v => exact Laws.EncodedIsLegal.filtAll e sp v
  | filtList e sp v => exact Laws.EncodedIsLegal.filtList e sp v
  | filtOne e sp v => exact Laws.EncodedIsLegal.filtOne e sp v
  | laneDemuxSer => exact Laws.EncodedIsLegal.laneDemuxSer
  | laneDemuxPar => exact Laws.EncodedIsLegal.laneDemuxPar
  | laneMuxSer => exact Laws.EncodedIsLegal.laneMuxSer
  | laneMuxPar => exact Laws.EncodedIsLegal.laneMuxPar

theorem legal_of_decode {d : Descriptor} {i : Instr} (h : decode d = .ok i) : d.legal = true := by
  obtain ⟨hlegal, -⟩ := encodedIsLegal i
  rwa [decode_eq_ok_iff.1 h] at hlegal

theorem opField_mem_usedOps_of_legal {d : Descriptor} (h : d.legal = true) : opField d ∈ Descriptor.usedOps := by
  simp only [Descriptor.legal, Bool.and_eq_true] at h
  obtain ⟨⟨hop, -⟩, -⟩ := h
  simpa [Descriptor.opUsed, opField] using hop

/-- Rule R72 row by row: under a used `OP`, the checks of legality leave no modifier setting that the decoder rejects. -/
theorem decode_isOk_of_legal_descriptorOf : ∀ op ∈ Descriptor.usedOps, ∀ b7 b6 b5 : Bool,
    (descriptorOf b7 b6 b5 op).legal = true → (decode (descriptorOf b7 b6 b5 op)).isOk = true := by decide

theorem exists_decode_of_legal {d : Descriptor} (h : d.legal = true) : ∃ i, decode d = .ok i := by
  have hok := decode_isOk_of_legal_descriptorOf _ (opField_mem_usedOps_of_legal h) (modBit7 d) (modBit6 d) (modBit5 d)
  rw [descriptorOf_fields] at hok
  cases hd : decode d with
  | ok i => exact ⟨i, rfl⟩
  | error why =>
    rw [hd] at hok
    exact absurd (hok h) Bool.false_ne_true

theorem legal_iff_exists_decode {d : Descriptor} : d.legal = true ↔ ∃ i, decode d = .ok i :=
  ⟨exists_decode_of_legal, fun ⟨_, h⟩ => legal_of_decode h⟩

/-! ### Rows of the opcode map -/

/-- `d` matches the row of `i` (rule R73). -/
def inRow (d : Descriptor) (i : Instr) : Prop := d &&& (rowOf i).1 = (rowOf i).2

theorem inRow_of_decode {d : Descriptor} {i : Instr} (h : decode d = .ok i) : inRow d i := by
  obtain ⟨-, hrow⟩ := encodedIsLegal i
  rwa [decode_eq_ok_iff.1 h] at hrow

/-- The operation of the row of `i` whose free bits are those of `d`. -/
def withModifiersOf (d : Descriptor) : Instr → Instr
  | .decCfix _ => .decCfix (modBit5 d)
  | .packFix _ => .packFix (modBit5 d)
  | .rndFix _ _ => .rndFix (modBit6 d) (modBit5 d)
  | .pktRanges _ _ => .pktRanges (modBit7 d) (modBit6 d)
  | .filtAll _ _ _ => .filtAll (modBit7 d) (modBit6 d) (modBit5 d)
  | .filtList _ _ _ => .filtList (modBit7 d) (modBit6 d) (modBit5 d)
  | .filtOne _ _ _ => .filtOne (modBit7 d) (modBit6 d) (modBit5 d)
  | i => i

theorem rowOf_withModifiersOf (d : Descriptor) (i : Instr) : rowOf (withModifiersOf d i) = rowOf i := by
  cases i <;> rfl

theorem modBits_of_and_eq {d m v : Descriptor} (h : d &&& m = v) :
    (modBit7 m = true → modBit7 d = modBit7 v) ∧ (modBit6 m = true → modBit6 d = modBit6 v) ∧
      (modBit5 m = true → modBit5 d = modBit5 v) := by
  subst h
  simp +contextual [modBit7, modBit6, modBit5]

theorem opField_of_and_eq {d m v : Descriptor} (h : d &&& m = v) (hm : m &&& 0x1F = 0x1F) : opField d = opField v := by
  subst h
  rw [opField, opField, BitVec.and_assoc, hm]

/-- Every row fixes the selector. -/
theorem rowOf_mask_selector (i : Instr) : (rowOf i).1 &&& 0x1F = 0x1F := by
  cases i <;> simp [rowOf]

/-- A descriptor in a row is the encoding of that row's operation: mask and match fix the bits that are not free. -/
theorem encode_withModifiersOf {d : Descriptor} {i : Instr} (h : inRow d i) : encode (withModifiersOf d i) = d := by
  have hop := opField_of_and_eq h (rowOf_mask_selector i)
  obtain ⟨h7, h6, h5⟩ := modBits_of_and_eq h
  calc encode (withModifiersOf d i)
      = descriptorOf (modBit7 d) (modBit6 d) (modBit5 d) (opField d) := by
        cases i <;> simp [rowOf, modBit7, modBit6, modBit5, opField] at hop h7 h6 h5 <;>
          simp [encode, withModifiersOf, modBit7, modBit6, modBit5, opField, hop, h7, h6, h5]
    _ = d := descriptorOf_fields d

theorem rowOf_eq_of_inRow {d : Descriptor} {i j : Instr} (h : decode d = .ok i) (hj : inRow d j) :
    rowOf j = rowOf i := by
  have hd : decode d = .ok (withModifiersOf d j) := decode_eq_ok_iff.2 (encode_withModifiersOf hj)
  obtain rfl : i = withModifiersOf d j := Except.ok.inj (h.symm.trans hd)
  exact (rowOf_withModifiersOf d j).symm

/-- Settles O3: a decoded descriptor is an encoding, and a row that it matches is the row of what it decodes to. -/
theorem legalDescriptorsMatchOneRow : Obligations.LegalDescriptorsMatchOneRow := by
  unfold Obligations.LegalDescriptorsMatchOneRow
  exact fun _ => ⟨legal_iff_exists_decode, fun _ _ h => ⟨inRow_of_decode h, rowOf_eq_of_inRow h⟩⟩

end Sys2Proof

namespace Sys2Proof.Machine

/-- Settles O5: what is not legal does not decode, and the step answers so. -/
theorem illegalDescriptorRaisesFormatError : Obligations.IllegalDescriptorRaisesFormatError := by
  unfold Obligations.IllegalDescriptorRaisesFormatError
  intro s r h hillegal
  cases hd : decode r.opd with
  | ok i => simp [legal_of_decode hd] at hillegal
  | error why => exact ⟨.descriptor why, step_of_illegal h hd⟩

/-! ### Raw tokens -/

theorem digitValue_digitChar : ∀ d < 16, digitValue 16 (Nat.digitChar d) = some d := by decide

theorem numeralFrom_append (base acc : Nat) (cs ds : List Char) :
    numeralFrom base acc (cs ++ ds) = (numeralFrom base acc cs).bind fun v => numeralFrom base v ds := by
  induction cs generalizing acc with
  | nil => rfl
  | cons c cs ih =>
    simp only [List.cons_append, numeralFrom]
    cases digitValue base c with
    | none => rfl
    | some d => exact ih _

theorem numeralFrom_toDigits (n : Nat) : numeralFrom 16 0 (Nat.toDigits 16 n) = some n := by
  induction n using Nat.strong_induction_on with
  | _ n ih =>
    by_cases hn : n < 16
    · simp [Nat.toDigits_of_lt_base hn, numeralFrom, digitValue_digitChar n hn]
    · have hdiv : n / 16 * 16 + n % 16 = n := Nat.div_add_mod' n 16
      rw [Nat.toDigits_of_base_le (by omega) (by omega), numeralFrom_append, ih (n / 16) (by omega)]
      simp [numeralFrom, digitValue_digitChar (n % 16) (by omega), hdiv]

/-- Settles O55, by strong induction on the number: its last digit is read onto the value of the others. -/
theorem rawTokenReadsBaseSixteen : Obligations.RawTokenReadsBaseSixteen := by
  unfold Obligations.RawTokenReadsBaseSixteen
  intro n
  constructor
  · simp [rawOfToken]
  · simp [rawOfToken, numeral, Nat.toDigits_ne_nil, numeralFrom_toDigits]

end Sys2Proof.Machine
end

section
/-!
PROOFS. The statements of 40_bitfield_codec.md about fixed-point words: illegal formats and codes (rules R89, R97), the
decoders (rules R90 to R92), the encoder (rules R93 to R96) and the packer (rule R97). The idea: on a legal format each
operation answers one result in closed form; decoding reads a code modulo `2^T`, and a code in range is what its own
pattern is read as, so encoding and packing are undone by decoding.
-/

namespace Sys2Proof.Machine

/-! ### The next state from the response -/

theorem exec_delivers {i : Instr} {s : State} {r : Request} {x : Response} (h : s.inFlight = some r)
    (hx : responseOf Config.params i r = x) : exec i s = .next (delivered x) := by
  rw [exec_of_request i h, hx]

/-! ### Illegal formats and codes -/

/-- When the first checks can only raise `st` and do not all pass, the answer is that fault. -/
theorem answer_faulted_of_first_checks {checks : List (Option Raise)} {st : Status}
    (hst : ∀ x, some x ∈ checks → x.status = st) (hbad : ¬ ∀ c ∈ checks, c = none) (rest : List (Option Raise))
    (x : Result) : ∃ info, answer (checks ++ rest) x = faulted st info := by
  obtain ⟨info, h⟩ := firstFailure_status hst hbad
  exact ⟨info, by rw [answer_fault h, faultResponse_eq_faulted]⟩

/-- The format check comes first, so an illegal format decides the answer (rule R89). -/
theorem answer_of_illegalFormat {P : Params} {c : Bool} {r : Request} (h : ¬ legalFormat P (if c then 2 else 1) r)
    (rest : List (Option Raise)) (x : Result) :
    ∃ info, answer (checkFixedFormat P c r ++ rest) x = faulted .configurationError info :=
  answer_faulted_of_first_checks (fun _ => checkFixedFormat_status) (mt checkFixedFormat_passes.1 h) rest x

/-- The code checks come next and raise the same status, so a bad code decides the answer, whatever is checked after it
(60_exceptions.md rule R214). -/
theorem answer_of_badCode {P : Params} {c : Bool} {r : Request} {codes : List (Option Raise)}
    (hcodes : ∀ x, some x ∈ codes → x.status = .configurationError) (hbad : ¬ ∀ x ∈ codes, x = none)
    (rest : List (Option Raise)) (x : Result) :
    ∃ info, answer ((checkFixedFormat P c r ++ codes) ++ rest) x = faulted .configurationError info := by
  refine answer_faulted_of_first_checks (fun e he => ?_) (fun h => hbad fun x hx => h x (List.mem_append_right _ hx)) rest x
  rcases List.mem_append.1 he with he | he
  · exact checkFixedFormat_status he
  · exact hcodes e he

/-- Settles O13: each operation with a format checks it first. -/
theorem badFormatRaisesConfigurationError : Obligations.BadFormatRaisesConfigurationError := by
  unfold Obligations.BadFormatRaisesConfigurationError
  intro i parts s r hi hr hbad
  suffices ∃ info, responseOf Config.params i r = faulted .configurationError info from
    this.imp fun _ => exec_delivers hr
  simp only [List.mem_cons, Prod.mk.injEq, List.not_mem_nil, or_false] at hi
  rcases hi with ⟨rfl, rfl⟩ | ⟨rfl, rfl⟩ | ⟨rfl, rfl⟩ | ⟨rfl, rfl⟩ | ⟨rfl, rfl⟩ | ⟨rfl, rfl⟩ | ⟨rfl, rfl⟩
  · exact answer_of_illegalFormat (c := false) hbad [] _
  · exact answer_of_illegalFormat (c := false) hbad [] _
  · exact answer_of_illegalFormat (c := true) hbad [] _
  · exact answer_of_illegalFormat (c := false) hbad [] _
  · exact answer_of_illegalFormat (c := false) hbad _ _
  · exact answer_of_illegalFormat (c := true) hbad _ _
  · exact answer_of_illegalFormat (c := false) hbad _ _

/-- The check of the real code alone, of `PACK_FIX`, raises `ConfigurationError`. -/
theorem checkRealCode_status {r : Request} {x : Raise} (h : some x ∈ [checkCode r r.realCode .realCode, none]) :
    x.status = .configurationError := by
  simp only [List.mem_cons, List.not_mem_nil, or_false, reduceCtorEq] at h
  exact checkCode_status h.symm

/-- The checks of both codes, of `PACK_FIX.C` and `ENC_FLT`, raise `ConfigurationError`. -/
theorem checkBothCodes_status {r : Request} {x : Raise}
    (h : some x ∈ [checkCode r r.realCode .realCode, checkCode r r.imagCode .imagCode]) :
    x.status = .configurationError := by
  simp only [List.mem_cons, List.not_mem_nil, or_false] at h
  rcases h with h | h <;> exact checkCode_status h.symm

theorem checkRealCode_passes {r : Request} :
    (∀ x ∈ [checkCode r r.realCode .realCode, none], x = none) ↔ codeInRange r r.realCode := by
  simp [checkCode_eq_none]

theorem checkBothCodes_passes {r : Request} :
    (∀ x ∈ [checkCode r r.realCode .realCode, checkCode r r.imagCode .imagCode], x = none) ↔
      codeInRange r r.realCode ∧ codeInRange r r.imagCode := by
  simp [checkCode_eq_none]

/-- Settles O21: the code checks raise `ConfigurationError` and come before the check of the exponent. -/
theorem codeOutOfRangeRaisesConfigurationError : Obligations.CodeOutOfRangeRaisesConfigurationError := by
  unfold Obligations.CodeOutOfRangeRaisesConfigurationError
  intro i s r hr hi
  suffices ∃ info, responseOf Config.params i r = faulted .configurationError info from
    this.imp fun _ => exec_delivers hr
  rcases hi with ⟨rfl, -, hbad⟩ | ⟨rfl, -, hbad⟩ | ⟨rfl, -, hbad⟩
  · exact answer_of_badCode (c := false) (fun _ => checkRealCode_status) (mt checkRealCode_passes.1 hbad) [] _
  · exact answer_of_badCode (c := true) (fun _ => checkBothCodes_status) (mt checkBothCodes_passes.1 hbad) [] _
  · exact answer_of_badCode (c := false) (fun _ => checkBothCodes_status) (mt checkBothCodes_passes.1 hbad) [_] _

/-! ### Codes and their patterns -/

theorem minCode_nonpos (r : Request) : minCode r ≤ 0 := by
  have : (0 : Int) < 2 ^ (r.intBits + r.fracBits).toNat := by positivity
  unfold minCode; split <;> omega

theorem maxCode_nonneg (r : Request) : 0 ≤ maxCode r := by
  have : (0 : Int) < 2 ^ (r.intBits + r.fracBits).toNat := by positivity
  unfold maxCode; omega

theorem codeLo_eq_minCode (r : Request) : codeLo (isSigned r) (magnitudeBits r) = minCode r := by
  simp [codeLo, minCode, isSigned, magnitudeBits]

theorem codeHi_eq_maxCode (r : Request) : codeHi (magnitudeBits r) = maxCode r := by
  simp [codeHi, maxCode, magnitudeBits]

section
variable {P : Params} {parts : Nat} {r : Request}

/-- A code is read from its lowest `T` bits (10_state.md rule R29). -/
theorem readCode_congr (h : legalFormat P parts r) {w w' : Int}
    (hw : w % 2 ^ formatWidth r = w' % 2 ^ formatWidth r) : readCode r w = readCode r w' := by
  rw [← decodeCode_readCode h, ← decodeCode_readCode h, decodeCode_congr hw]

/-- A code in range is what it is read as (rule R91). -/
theorem readCode_of_codeInRange (h : legalFormat P parts r) {c : Int} (hc : codeInRange r c) : readCode r c = c := by
  obtain ⟨hsign, hint, hfrac, htotal, -⟩ := h
  obtain ⟨hlo, hhi⟩ := hc
  unfold minCode at hlo
  unfold maxCode at hhi
  unfold readCode
  rcases hsign with hs | hs
  · have hm : r.signBits + r.intBits + r.fracBits = r.intBits + r.fracBits := by omega
    rw [if_neg (by omega)] at hlo ⊢
    rw [hm]
    exact Int.emod_eq_of_lt hlo (by omega)
  · have hm : (r.signBits + r.intBits + r.fracBits).toNat - 1 = (r.intBits + r.fracBits).toNat := by omega
    rw [if_pos hs] at hlo ⊢
    exact bmod_two_pow_of_mem (by omega) (by rwa [hm]) (by rw [hm]; omega)

/-- The pattern of a code in range is read as the code (rule R91). -/
theorem readCode_of_pattern (h : legalFormat P parts r) {c w : Int} (hc : codeInRange r c)
    (hw : w % 2 ^ formatWidth r = c % 2 ^ formatWidth r) : readCode r w = c := by
  rw [readCode_congr h hw, readCode_of_codeInRange h hc]

/-! ### Decoding -/

/-- `DEC_FIX` of any word on a legal format (rule R90). -/
theorem serveDecFix_of_legal (h : legalFormat P 1 r) (w : Int) :
    serveDecFix P { r with raw := w } = okResponse (.value (.real ((readCode r w : Rat) / 2 ^ r.fracBits.toNat))) :=
  (answer_ok (checkFixedFormat_passes.2 h)).trans
    (congrArg (fun v => okResponse (.value (.real v))) (decodeFixed_readCode h _ w))

/-- The two halves of a complex word, each read as a word of its own (rule R92). -/
theorem decodeComplex_readCode (h : legalFormat P parts r) (f : Nat) (w : Int) :
    decodeComplex (isSigned r) (formatWidth r) f w =
      .complex ((readCode r w : Rat) / 2 ^ f) ((readCode r (w / 2 ^ formatWidth r) : Rat) / 2 ^ f) := by
  have hT : 1 ≤ formatWidth r := by
    obtain ⟨-, -, -, htotal, -⟩ := h
    unfold formatWidth totalBits
    omega
  have hread (v : Int) : readCode r (tc (formatWidth r) v) = readCode r v :=
    readCode_congr h (by rw [tc_cast, Int.emod_emod])
  rw [decodeComplex, complexLow_eq hT, complexHigh_eq hT, decodeFixed_readCode h, decodeFixed_readCode h, hread, hread]

/-- `DEC_CFIX.C` of any word on a legal format (rule R92). -/
theorem serveDecCfix_true_of_legal (h : legalFormat P 2 r) (w : Int) :
    serveDecCfix true P { r with raw := w } =
      okResponse (.value (.complex ((readCode r w : Rat) / 2 ^ r.fracBits.toNat)
        ((readCode r (w / 2 ^ formatWidth r) : Rat) / 2 ^ r.fracBits.toNat))) :=
  (answer_ok (checkFixedFormat_passes.2 h)).trans
    (congrArg (fun v => okResponse (.value v)) (decodeComplex_readCode h _ w))

/-! ### Encoding -/

/-- The code of one part of a Sample: scaled, rounded, clipped (rule R94). -/
def encodedCode (tie : TieRule) (r : Request) (q : Rat) : Int :=
  max (minCode r) (min (maxCode r) (rnd tie (q * 2 ^ r.fracBits.toNat)))

theorem encodeFixed_eq_encodedCode (tie : TieRule) (r : Request) (q : Rat) :
    encodeFixed tie (isSigned r) (magnitudeBits r) r.fracBits.toNat q = encodedCode tie r q := by
  have hle : minCode r ≤ maxCode r := (minCode_nonpos r).trans (maxCode_nonneg r)
  rw [encodeFixed, codeLo_eq_minCode, codeHi_eq_maxCode, clamp_eq hle, encodedCode]
  push_cast
  rfl

/-- `ENC_FIX` on a legal format (rule R94). -/
theorem serveEncFix_of_legal (h : legalFormat P 1 r) :
    serveEncFix P r = okResponse
      (.codes (encodedCode P.encTie r (sampleRe r.sample)) (encodedCode P.encTie r (sampleIm r.sample))) := by
  rw [serveEncFix, answer_ok (checkFixedFormat_passes.2 h), encodeFixed_eq_encodedCode, encodeFixed_eq_encodedCode]

/-- Rounding does not cross an integer from above. -/
theorem le_rnd {q : Rat} {j : Int} (tie : TieRule) (h : (j : Rat) ≤ q) : j ≤ rnd tie q := by
  obtain ⟨-, hq⟩ := abs_le.1 (nearestInt_abs_le (rnd_nearest tie q))
  have : ((j - 1 : Int) : Rat) < rnd tie q := by push_cast; linarith
  exact Int.sub_one_lt_iff.1 (Int.cast_lt.1 this)

/-- Rounding does not cross an integer from below. -/
theorem rnd_le {q : Rat} {j : Int} (tie : TieRule) (h : q ≤ j) : rnd tie q ≤ j := by
  obtain ⟨hq, -⟩ := abs_le.1 (nearestInt_abs_le (rnd_nearest tie q))
  have : (rnd tie q : Rat) < ((j + 1 : Int) : Rat) := by push_cast; linarith
  exact Int.lt_add_one_iff.1 (Int.cast_lt.1 this)

theorem encodedCode_of_maxCode_le {tie : TieRule} {q : Rat} (h : (maxCode r : Rat) ≤ q * 2 ^ r.fracBits.toNat) :
    encodedCode tie r q = maxCode r := by
  have hle : minCode r ≤ maxCode r := (minCode_nonpos r).trans (maxCode_nonneg r)
  rw [encodedCode, min_eq_left (le_rnd tie h), max_eq_right hle]

theorem encodedCode_of_le_minCode {tie : TieRule} {q : Rat} (h : q * 2 ^ r.fracBits.toNat ≤ (minCode r : Rat)) :
    encodedCode tie r q = minCode r := by
  rw [encodedCode, max_eq_left (min_le_of_right_le (rnd_le tie h))]

/-- A part whose scaled value lies in the code range is not clipped. -/
theorem encodedCode_of_inRange {tie : TieRule} {q : Rat} (hlo : (minCode r : Rat) ≤ q * 2 ^ r.fracBits.toNat)
    (hhi : q * 2 ^ r.fracBits.toNat ≤ (maxCode r : Rat)) :
    encodedCode tie r q = rnd tie (q * 2 ^ r.fracBits.toNat) := by
  rw [encodedCode, min_eq_right (rnd_le tie hhi), max_eq_right (le_rnd tie hlo)]

theorem encodedCode_inRange (tie : TieRule) (r : Request) (q : Rat) : codeInRange r (encodedCode tie r q) :=
  ⟨le_max_left _ _, max_le ((minCode_nonpos r).trans (maxCode_nonneg r)) (min_le_left _ _)⟩

theorem encodedCode_zero (tie : TieRule) (r : Request) : encodedCode tie r 0 = 0 := by
  have hrnd : rnd tie 0 = 0 := le_antisymm (rnd_le tie (by simp)) (le_rnd tie (by simp))
  rw [encodedCode, zero_mul, hrnd, min_eq_right (maxCode_nonneg r), max_eq_right (minCode_nonpos r)]

/-- Half a unit of the code is `2^-(f+1)` of the value (rule R96). -/
theorem abs_rnd_div_sub_le (tie : TieRule) (v : Rat) (f : Nat) :
    |(rnd tie (v * 2 ^ f) : Rat) / 2 ^ f - v| ≤ 1 / 2 ^ (f + 1) := by
  have hf : (0 : Rat) < 2 ^ f := by positivity
  have hsub : (rnd tie (v * 2 ^ f) : Rat) / 2 ^ f - v = -(v * 2 ^ f - rnd tie (v * 2 ^ f)) / 2 ^ f := by
    field_simp; ring
  have hpow : (1 : Rat) / 2 ^ (f + 1) = 1 / 2 / 2 ^ f := by rw [pow_succ', div_div]
  rw [hsub, abs_div, abs_neg, abs_of_pos hf, hpow]
  exact div_le_div_of_nonneg_right (nearestInt_abs_le (rnd_nearest tie _)) hf.le

/-! ### Packing -/

/-- `PACK_FIX` of a code in range (rule R97). -/
theorem servePackFix_false_of_legal (h : legalFormat P 1 r) (hre : codeInRange r r.realCode) :
    servePackFix false P r = okResponse (.word (formatWidth r) (tc (formatWidth r) r.realCode)) :=
  answer_ok (List.forall_mem_append.2 ⟨checkFixedFormat_passes.2 h, checkRealCode_passes.2 hre⟩)

/-- `PACK_FIX.C` of two codes in range (rule R97). -/
theorem servePackFix_true_of_legal (h : legalFormat P 2 r) (hre : codeInRange r r.realCode)
    (him : codeInRange r r.imagCode) :
    servePackFix true P r =
      okResponse (.word (2 * formatWidth r) (packComplex (formatWidth r) r.realCode r.imagCode)) :=
  answer_ok (List.forall_mem_append.2 ⟨checkFixedFormat_passes.2 h, checkBothCodes_passes.2 ⟨hre, him⟩⟩)

end

theorem packComplex_cast (T : Nat) (re im : Int) :
    (packComplex T re im : Int) = im % 2 ^ T * 2 ^ T + re % 2 ^ T := by
  rw [packComplex_eq]
  push_cast
  rw [tc_cast, tc_cast]

/-- The low half of the packed word is the real code's pattern. -/
theorem packComplex_emod (T : Nat) (re im : Int) : (packComplex T re im : Int) % 2 ^ T = re % 2 ^ T := by
  rw [packComplex_cast, add_comm, Int.add_mul_emod_self_right, Int.emod_emod]

/-- The high half of the packed word is the imaginary code's pattern. -/
theorem packComplex_ediv (T : Nat) (re im : Int) : (packComplex T re im : Int) / 2 ^ T = im % 2 ^ T := by
  have hT : (0 : Int) < 2 ^ T := by positivity
  rw [packComplex_cast, add_comm, Int.add_mul_ediv_right _ _ hT.ne',
    Int.ediv_eq_zero_of_lt (Int.emod_nonneg _ hT.ne') (Int.emod_lt_of_pos _ hT), zero_add]

/-! ### The statements -/

/-- Settles O14: a legal format passes the check, and the result is the reading of `raw`. -/
theorem decFixReadsCodeOverScale : Obligations.DecFixReadsCodeOverScale := by
  unfold Obligations.DecFixReadsCodeOverScale
  exact fun _ r hr h => exec_delivers hr (serveDecFix_of_legal h r.raw)

/-- Settles O15: without `C` the operation is `DEC_FIX`, with `C` it decodes the two halves. -/
theorem decCfixReadsHalves : Obligations.DecCfixReadsHalves := by
  unfold Obligations.DecCfixReadsHalves
  intro c s r hr h
  cases c with
  | false => exact exec_delivers hr (serveDecFix_of_legal h r.raw)
  | true => exact exec_delivers hr (serveDecCfix_true_of_legal h r.raw)

/-- Settles O16: the integers that `rnd` gives are nearest ones. -/
theorem encFixScalesRoundsClips : Obligations.EncFixScalesRoundsClips := by
  unfold Obligations.EncFixScalesRoundsClips
  exact fun _ _ hr h =>
    ⟨_, _, rnd_nearest _ _, rnd_nearest _ _, exec_delivers hr (serveEncFix_of_legal h)⟩

/-- Settles O17: a nearest integer of a number beyond a bound is not before that bound, so it is clipped to it. -/
theorem encFixSaturatesToNearerBound : Obligations.EncFixSaturatesToNearerBound := by
  unfold Obligations.EncFixSaturatesToNearerBound
  intro s r hr h
  refine ⟨_, _, exec_delivers hr (serveEncFix_of_legal h), ?_, ?_, ?_, ?_⟩
  · exact fun hre => encodedCode_of_maxCode_le hre.le
  · exact fun hre => encodedCode_of_le_minCode hre.le
  · exact fun him => encodedCode_of_maxCode_le him.le
  · exact fun him => encodedCode_of_le_minCode him.le

/-- Settles O18: the value is not clipped, its code is read as itself, and rounding moved it by at most half a unit. -/
theorem encodeThenDecodeFixedIsClose : Obligations.EncodeThenDecodeFixedIsClose := by
  unfold Obligations.EncodeThenDecodeFixedIsClose
  intro s r v hr h hv hlo hhi
  have henc := serveEncFix_of_legal h
  simp only [hv, sampleRe, sampleIm, encodedCode_zero] at henc
  refine ⟨_, _, exec_delivers hr henc, fun t ht => exec_delivers ht (serveDecFix_of_legal h _), ?_⟩
  rw [readCode_of_codeInRange h (encodedCode_inRange _ r v), encodedCode_of_inRange hlo hhi]
  exact abs_rnd_div_sub_le _ v _

/-- Settles O19: the pattern is read as the code. -/
theorem decFixInvertsCodePattern : Obligations.DecFixInvertsCodePattern := by
  unfold Obligations.DecFixInvertsCodePattern
  intro s r c h hc hr
  have hdec := serveDecFix_of_legal h (c % 2 ^ formatWidth r)
  rw [readCode_of_pattern h hc (Int.emod_emod ..)] at hdec
  exact exec_delivers hr hdec

/-- Settles O20: the checks pass, and concatenation is a sum. -/
theorem packFixBuildsWord : Obligations.PackFixBuildsWord := by
  unfold Obligations.PackFixBuildsWord
  intro c s r hr h hre him
  refine exec_delivers hr ?_
  cases c with
  | false => exact (servePackFix_false_of_legal h hre).trans (by rw [tc_eq]; rfl)
  | true =>
    have hpack : packComplex (formatWidth r) r.realCode r.imagCode =
        (r.imagCode % 2 ^ formatWidth r * 2 ^ formatWidth r + r.realCode % 2 ^ formatWidth r).toNat := by
      rw [← packComplex_cast, Int.toNat_natCast]
    exact (servePackFix_true_of_legal h hre (him rfl)).trans (by rw [hpack]; rfl)

/-- Settles O22: each half of the packed word is the pattern of its code. -/
theorem decCfixInvertsPackFix : Obligations.DecCfixInvertsPackFix := by
  unfold Obligations.DecCfixInvertsPackFix
  intro s r hr h hre him
  have hdec := serveDecCfix_true_of_legal h (packComplex (formatWidth r) r.realCode r.imagCode)
  rw [readCode_of_pattern h hre (packComplex_emod ..),
    readCode_of_pattern h him (by rw [packComplex_ediv, Int.emod_emod])] at hdec
  exact ⟨_, _, exec_delivers hr (servePackFix_true_of_legal h hre him), fun t ht => exec_delivers ht hdec⟩

end Sys2Proof.Machine
end

section
/-!
PROOFS. The statements of 40_bitfield_codec.md about block-float words (rule R99): the fields that `DEC_FLT` reads, that
the exponent field does not enter the Sample, and that decoding undoes `ENC_FLT` on parts that need no shift. The idea: a
part of at most 13 bits has a candidate exponent of at most 12, so the shared shift is 0 and its mantissa is the part.
-/

namespace Sys2Proof.Machine

/-! ### Reading the fields -/

/-- `DEC_FLT` of any word (rule R99). -/
theorem serveDecFlt_eq (P : Params) (r : Request) (w : Int) :
    serveDecFlt P { r with raw := w } = okResponse (.floatValue (Int.bmod w (2 ^ 13))
      (Int.bmod (w / 2 ^ 13) (2 ^ 13)) (w / 2 ^ 26 % 2 ^ 6).toNat) := by
  have hI : tc fltBits w &&& mask manBits = tc manBits w := by
    rw [mask_and]
    simpa using tc_field (lo := 0) (show 0 + manBits ≤ fltBits by decide) w
  have hQ : (tc fltBits w >>> manBits) &&& mask manBits = tc manBits (w / 2 ^ manBits) :=
    (shiftRight_mask ..).trans (tc_field (by decide) w)
  have hE : (tc fltBits w >>> (2 * manBits)) &&& mask expBits = tc expBits (w / 2 ^ (2 * manBits)) :=
    (shiftRight_mask ..).trans (tc_field (by decide) w)
  have hpos : 1 ≤ manBits := by decide
  simp only [serveDecFlt, hI, hQ, hE, sint_tc hpos]
  exact (answer_ok (List.forall_mem_nil _)).trans (by rw [tc_eq]; rfl)

/-- The balanced remainder is one function of the remainder. -/
theorem bmod_congr {w : Nat} (hw : 1 ≤ w) {x y : Int} (h : x % 2 ^ w = y % 2 ^ w) :
    Int.bmod x (2 ^ w) = Int.bmod y (2 ^ w) := by
  rw [bmod_two_pow hw, bmod_two_pow hw, h]

/-- Settles O23: there is no check, and the fields of the word are read at `raw`. -/
theorem decFltReadsFields : Obligations.DecFltReadsFields := by
  unfold Obligations.DecFltReadsFields
  exact fun _ r hr => exec_delivers hr (serveDecFlt_eq Config.params r r.raw)

/-- Settles O24: both mantissas lie in the low 26 bits. -/
theorem decFltIgnoresExponent : Obligations.DecFltIgnoresExponent := by
  unfold Obligations.DecFltIgnoresExponent
  intro s t r raw' hs ht hlow
  have hI : r.raw % 2 ^ 13 = raw' % 2 ^ 13 := by omega
  have hQ : r.raw / 2 ^ 13 % 2 ^ 13 = raw' / 2 ^ 13 % 2 ^ 13 := by omega
  have hdec := serveDecFlt_eq Config.params r raw'
  rw [← bmod_congr (by decide) hI, ← bmod_congr (by decide) hQ] at hdec
  exact ⟨_, _, _, _, exec_delivers hs (serveDecFlt_eq Config.params r r.raw), exec_delivers ht hdec⟩

/-! ### Encoding without a shift -/

theorem ceilLog2_le {n w : Nat} (hn : n ≠ 0) (h : n ≤ 2 ^ w) : ceilLog2 n ≤ w := by
  have hself : 2 ^ Nat.log2 n ≤ n := Nat.log2_self_le hn
  unfold ceilLog2
  split
  · next hpow => exact (Nat.pow_le_pow_iff_right (by decide)).1 (hpow.le.trans h)
  · next hpow => exact (Nat.pow_lt_pow_iff_right (by decide)).1 ((lt_of_le_of_ne hself hpow).trans_le h)

/-- The candidate exponent of a positive part is its bit length: the bump at a power of two makes up for the exact
logarithm (rule R121). -/
theorem expCalc_of_pos {x : Int} (h : 0 < x) : expCalc x = Nat.log2 x.natAbs + 1 := by
  by_cases hpow : 2 ^ Nat.log2 x.natAbs = x.natAbs <;> simp [expCalc, ceilLog2, isPowerOfTwo, h, h.ne', hpow]

theorem expCalc_of_neg {x : Int} (h : x < 0) : expCalc x = ceilLog2 x.natAbs := by
  simp [expCalc, h.ne, h.not_gt]

/-- A part with a two's-complement pattern of `w + 1` bits has a candidate exponent of at most `w` (rule R121). -/
theorem expCalc_le {x : Int} {w : Nat} (hlo : -2 ^ w ≤ x) (hhi : x < 2 ^ w) : expCalc x ≤ w := by
  rcases lt_trichotomy x 0 with hx | rfl | hx
  · rw [expCalc_of_neg hx]
    exact ceilLog2_le (by omega) (by zify; rw [abs_of_neg hx]; omega)
  · exact Nat.zero_le w
  · rw [expCalc_of_pos hx]
    exact (Nat.log2_lt (by omega)).2 (by zify; rwa [abs_of_pos hx])

section
variable {x re im : Int}

theorem expShared_eq_zero (hre : -4096 ≤ re ∧ re ≤ 4095) (him : -4096 ≤ im ∧ im ≤ 4095) : expShared re im = 0 := by
  have hexpRe : expCalc re ≤ 12 := expCalc_le (by omega) (by omega)
  have hexpIm : expCalc im ≤ 12 := expCalc_le (by omega) (by omega)
  unfold expShared manBits
  omega

/-- Without a shift a part is its own mantissa (rule R124). -/
theorem mantissa_zero_shift (hx : x ≤ 4095) : mantissa 0 x = x := by
  have hround : hdlRound ((x : Rat) / ((2 ^ 0 : Nat) : Rat)) = x := by
    rw [hdlRound_eq_iff]
    constructor <;> norm_num
  rw [mantissa, hround, if_neg]
  norm_num [manBits]
  omega

/-- The exponent of a sample that needs no shift fits its field, unless the bias alone does not (rule R124). -/
theorem packedExp_lt {bias : Nat} (hre : -4096 ≤ re ∧ re ≤ 4095) (him : -4096 ≤ im ∧ im ≤ 4095)
    (hbias : bias ≤ 63 ∨ (re = 0 ∧ im = 0)) : packedExp bias re im < 2 ^ expBits := by
  rw [packedExp, expShared_eq_zero hre him, mantissa_zero_shift hre.2, mantissa_zero_shift him.2]
  unfold expBits
  split <;> omega

end

/-- The block-float word as a sum of its fields (30_encoding.md rule R62). -/
theorem floatWord_cast (exp : Nat) (manI manQ : Int) :
    (floatWord exp manI manQ : Int) = exp * 2 ^ 26 + manQ % 2 ^ 13 * 2 ^ 13 + manI % 2 ^ 13 := by
  have hI : tc manBits manI < 2 ^ manBits := tc_lt manBits manI
  have hword : floatWord exp manI manQ = (exp * 2 ^ manBits + tc manBits manQ) * 2 ^ manBits + tc manBits manI := by
    rw [← shift_or_eq_add hI, ← shift_or_eq_add (tc_lt manBits manQ), Nat.shiftLeft_or_distrib, ← Nat.shiftLeft_add]
    rfl
  rw [hword]
  push_cast
  rw [tc_cast, tc_cast]
  unfold manBits
  omega

/-- `ENC_FLT` on parts that need no shift packs the parts themselves (rule R99). -/
theorem serveEncFlt_of_noShift {P : Params} {r : Request} (h : legalFormat P 1 r) (hcre : codeInRange r r.realCode)
    (hcim : codeInRange r r.imagCode) (hre : -4096 ≤ r.realCode ∧ r.realCode ≤ 4095)
    (him : -4096 ≤ r.imagCode ∧ r.imagCode ≤ 4095) (hbias : P.expBias ≤ 63 ∨ (r.realCode = 0 ∧ r.imagCode = 0)) :
    serveEncFlt P r = okResponse (.word 32
      (floatWord (packedExp P.expBias r.realCode r.imagCode) r.realCode r.imagCode)) := by
  have hchecks : ∀ c ∈ checkFixedFormat P false r ++ [checkCode r r.realCode .realCode,
      checkCode r r.imagCode .imagCode, checkExpRange (packedExp P.expBias r.realCode r.imagCode)], c = none :=
    List.forall_mem_append.2 ⟨checkFixedFormat_passes.2 h, by
      simp [checkCode_eq_none, hcre, hcim, checkExpRange_eq_none, packedExp_lt hre him hbias]⟩
  rw [serveEncFlt, answer_ok hchecks, expShared_eq_zero hre him, mantissa_zero_shift hre.2, mantissa_zero_shift him.2]
  rfl

/-- Settles O29: the mantissas are the parts, and each is read back from its own 13 bits. -/
theorem decFltInvertsEncFltInRange : Obligations.DecFltInvertsEncFltInRange := by
  unfold Obligations.DecFltInvertsEncFltInRange
  intro s r hr h hcre hcim hreLo hreHi himLo himHi hbias
  have henc := serveEncFlt_of_noShift h hcre hcim ⟨hreLo, hreHi⟩ ⟨himLo, himHi⟩ hbias
  have hword := floatWord_cast (packedExp Config.params.expBias r.realCode r.imagCode) r.realCode r.imagCode
  generalize floatWord (packedExp Config.params.expBias r.realCode r.imagCode) r.realCode r.imagCode = bits
    at henc hword
  have hI : Int.bmod bits (2 ^ 13) = r.realCode :=
    (bmod_congr (by decide) (by omega)).trans (bmod_two_pow_of_mem (by decide) (by omega) (by omega))
  have hQ : Int.bmod (bits / 2 ^ 13) (2 ^ 13) = r.imagCode :=
    (bmod_congr (by decide) (by omega)).trans (bmod_two_pow_of_mem (by decide) (by omega) (by omega))
  have hdec := serveDecFlt_eq Config.params r bits
  rw [hI, hQ] at hdec
  exact ⟨bits, _, exec_delivers hr henc, fun t ht => exec_delivers ht hdec⟩

end Sys2Proof.Machine
end

section
/-!
PROOFS. The statements of 41_blockfloat_encoder.md: the candidate exponent (rule R121), `hdl_round` (rule R122), the packed
word of `ENC_FLT` (rules R123, R124, R126) and the array form (rule R120). The idea: both parts fit a shift exactly when the
shared shift is at most it, so the shared shift is the least one; below it the part that needs it does not vanish under
rounding, so only the all-zero sample has two zero mantissas.
-/

namespace Sys2Proof.Machine

/-! ### The candidate exponent (rule R121) -/

theorem le_two_pow_ceilLog2 (n : Nat) : n ≤ 2 ^ ceilLog2 n := by
  unfold ceilLog2
  split
  · next hpow => exact hpow.ge
  · exact Nat.lt_log2_self.le

/-- A part with a candidate exponent of at most `w` has a two's-complement pattern of `w + 1` bits (rule R121). -/
theorem bounds_of_expCalc_le {x : Int} {w : Nat} (h : expCalc x ≤ w) : -2 ^ w ≤ x ∧ x < 2 ^ w := by
  have hpos : (0 : Int) < 2 ^ w := by positivity
  rcases lt_trichotomy x 0 with hx | rfl | hx
  · rw [expCalc_of_neg hx] at h
    have habs : x.natAbs ≤ 2 ^ w := (le_two_pow_ceilLog2 _).trans (Nat.pow_le_pow_right (by decide) h)
    zify at habs
    rw [abs_of_neg hx] at habs
    omega
  · omega
  · rw [expCalc_of_pos hx] at h
    have habs : x.natAbs < 2 ^ w := (Nat.log2_lt (by omega)).1 h
    zify at habs
    rw [abs_of_pos hx] at habs
    omega

theorem expCalc_le_iff (x : Int) (w : Nat) : expCalc x ≤ w ↔ -2 ^ w ≤ x ∧ x < 2 ^ w :=
  ⟨bounds_of_expCalc_le, fun ⟨hlo, hhi⟩ => expCalc_le hlo hhi⟩

/-- Settles O25, for negative, zero and positive parts apart. -/
theorem expCalcIsLeastWidth : Obligations.ExpCalcIsLeastWidth := by
  unfold Obligations.ExpCalcIsLeastWidth
  exact expCalc_le_iff

/-! ### Rounding after a shift (rule R122) -/

theorem hdlRound_intCast (x : Int) : hdlRound (x : Rat) = x :=
  (hdlRound_eq_iff _ _).2 ⟨by linarith, by linarith⟩

theorem shiftRoundUp_zero (x : Int) : shiftRoundUp 0 x = x := by simp [shiftRoundUp]

theorem shiftRoundUp_succ (k : Nat) (x : Int) : shiftRoundUp (k + 1) x = (x + 2 ^ k) / 2 ^ (k + 1) := by
  rw [shiftRoundUp, two_pow_pred (Nat.le_add_left 1 k), Nat.add_sub_cancel, Int.mul_ediv_cancel_left _ (by decide)]

/-- `hdl_round` of a right shift, in integers (rule R122). -/
theorem hdlRound_shift (sh : Nat) (x : Int) : hdlRound ((x : Rat) / 2 ^ sh) = shiftRoundUp sh x := by
  cases sh with
  | zero => rw [pow_zero, div_one, hdlRound_intCast, shiftRoundUp_zero]
  | succ k =>
    have hhalf : (x : Rat) / 2 ^ (k + 1) + 1 / 2 = ((x + 2 ^ k : Int) : Rat) / ((2 ^ (k + 1) : Nat) : Rat) := by
      push_cast
      field_simp
      ring
    rw [hdlRound, hhalf, Rat.floor_intCast_div_natCast, shiftRoundUp_succ]
    push_cast
    rfl

/-- Settles O26: the floor by its bounds, a right shift by the integer form of the rounding. -/
theorem hdlRoundRoundsHalfUp : Obligations.HdlRoundRoundsHalfUp := by
  unfold Obligations.HdlRoundRoundsHalfUp
  refine ⟨hdlRound_eq_iff, fun x sh hsh => ?_, hdlRound_intCast⟩
  obtain ⟨k, rfl⟩ := Nat.exists_eq_add_of_le' hsh
  rw [hdlRound_shift, shiftRoundUp_succ, Nat.add_sub_cancel]

/-- Rounding gives 0 on the parts inside half a unit only. -/
theorem shiftRoundUp_succ_eq_zero {k : Nat} {x : Int} (h : shiftRoundUp (k + 1) x = 0) : -2 ^ k ≤ x ∧ x < 2 ^ k := by
  have hpos : (0 : Int) < 2 ^ (k + 1) := by positivity
  have hdouble : (2 : Int) ^ (k + 1) = 2 * 2 ^ k := pow_succ' 2 k
  rw [shiftRoundUp_succ] at h
  have hlo : 0 ≤ x + 2 ^ k := (Int.ediv_nonneg_iff_of_pos hpos).1 h.ge
  have hhi : x + 2 ^ k < 1 * 2 ^ (k + 1) := (Int.ediv_lt_iff_lt_mul hpos).1 (by omega)
  omega

/-! ### The shared shift and the mantissas (rules R123 to R125) -/

section
variable {re im x : Int} {sh : Nat}

/-- The shared shift is the least one after which both parts fit (rule R123). -/
theorem expShared_le_iff : expShared re im ≤ sh ↔ fitsShift re im sh := by
  have hmax : expShared re im ≤ sh ↔ expCalc re ≤ 12 + sh ∧ expCalc im ≤ 12 + sh := by
    unfold expShared manBits
    omega
  rw [hmax, expCalc_le_iff, expCalc_le_iff, fitsShift, and_assoc]

theorem expShared_eq_of_least (hfits : fitsShift re im sh) (hleast : ∀ k, k < sh → ¬ fitsShift re im k) :
    expShared re im = sh :=
  le_antisymm (expShared_le_iff.2 hfits) (not_lt.1 fun hlt => hleast _ hlt (expShared_le_iff.1 le_rfl))

theorem mantissa_eq (sh : Nat) (x : Int) : mantissa sh x = min 4095 (shiftRoundUp sh x) := by
  have hround : hdlRound ((x : Rat) / ((2 ^ sh : Nat) : Rat)) = shiftRoundUp sh x := by
    rw [← hdlRound_shift]
    push_cast
    rfl
  rw [mantissa, hround]
  norm_num [manBits]
  omega

theorem mantissa_eq_zero_iff : mantissa sh x = 0 ↔ shiftRoundUp sh x = 0 := by
  rw [mantissa_eq]
  omega

/-- Only the all-zero sample has two zero mantissas: two parts that both vanish under rounding fit a smaller shift
(rule R125 (c)). -/
theorem mantissas_eq_zero_iff :
    mantissa (expShared re im) re = 0 ∧ mantissa (expShared re im) im = 0 ↔ re = 0 ∧ im = 0 := by
  rw [mantissa_eq_zero_iff, mantissa_eq_zero_iff]
  constructor
  · rintro ⟨hre, him⟩
    cases hsh : expShared re im with
    | zero =>
      rw [hsh, shiftRoundUp_zero] at hre him
      exact ⟨hre, him⟩
    | succ k =>
      rw [hsh] at hre him
      obtain ⟨hreLo, hreHi⟩ := shiftRoundUp_succ_eq_zero hre
      obtain ⟨himLo, himHi⟩ := shiftRoundUp_succ_eq_zero him
      have hpow : (2 : Int) ^ k ≤ 2 ^ (12 + k) := pow_le_pow_right₀ (by decide) (by omega)
      have hfits : fitsShift re im k := ⟨by omega, by omega, by omega, by omega⟩
      have := expShared_le_iff.2 hfits
      omega
  · rintro ⟨rfl, rfl⟩
    have hsh : expShared 0 0 = 0 := expShared_eq_zero (by decide) (by decide)
    rw [hsh, shiftRoundUp_zero]
    exact ⟨rfl, rfl⟩

theorem packedExp_zero (bias : Nat) : packedExp bias 0 0 = 0 :=
  if_pos (mantissas_eq_zero_iff.2 ⟨rfl, rfl⟩)

theorem packedExp_of_ne_zero (bias : Nat) (h : ¬ (re = 0 ∧ im = 0)) :
    packedExp bias re im = expShared re im + bias :=
  if_neg (mt mantissas_eq_zero_iff.1 h)

theorem mantissaField_cast (sh : Nat) (x : Int) : (mantissaField sh x : Int) = mantissa sh x % 2 ^ 13 := by
  rw [mantissaField, mantissa_eq]
  omega

/-- The block-float word of two mantissas as a sum of its fields (30_encoding.md rule R62). -/
theorem floatWord_mantissas (exp sh : Nat) (re im : Int) : floatWord exp (mantissa sh re) (mantissa sh im) =
    exp * 2 ^ 26 + mantissaField sh im * 2 ^ 13 + mantissaField sh re := by
  zify
  rw [floatWord_cast, mantissaField_cast, mantissaField_cast]

end

/-! ### The word of a sample (rules R124, R126) -/

section
variable {P : Params} {r : Request}

theorem checkExpRange_fails {exp : Nat} (h : ¬ exp < 2 ^ expBits) :
    checkExpRange exp = some ⟨.expRangeFault, .exponent exp⟩ := by
  rw [checkExpRange, if_pos]
  unfold expBits at *
  omega

/-- `ENC_FLT` of codes in range: the word, or the fault that names an exponent above 63 (rule R124). -/
theorem serveEncFlt_of_legal (h : legalFormat P 1 r) (hre : codeInRange r r.realCode)
    (him : codeInRange r r.imagCode) :
    serveEncFlt P r =
      if packedExp P.expBias r.realCode r.imagCode < 2 ^ expBits then
        okResponse (.word 32 (floatWord (packedExp P.expBias r.realCode r.imagCode)
          (mantissa (expShared r.realCode r.imagCode) r.realCode)
          (mantissa (expShared r.realCode r.imagCode) r.imagCode)))
      else faulted .expRangeFault (.exponent (packedExp P.expBias r.realCode r.imagCode)) := by
  have hformat := firstFailure_eq_none.2 ((checkFixedFormat_passes (c := false)).2 h)
  have hre' : checkCode r r.realCode .realCode = none := checkCode_eq_none.2 hre
  have him' : checkCode r r.imagCode .imagCode = none := checkCode_eq_none.2 him
  rw [serveEncFlt, answer, firstFailure_append, hformat, hre', him']
  split_ifs with hexp
  · rw [checkExpRange_eq_none.2 hexp]
    rfl
  · rw [checkExpRange_fails hexp]
    rfl

theorem codeInRange_zero (r : Request) : codeInRange r 0 := ⟨minCode_nonpos r, maxCode_nonneg r⟩

/-- The all-zero sample is word 0, whatever the bias (rule R126). -/
theorem serveEncFlt_zero (h : legalFormat P 1 r) (hre : r.realCode = 0) (him : r.imagCode = 0) :
    serveEncFlt P r = okResponse (.word 32 0) := by
  have hword := serveEncFlt_of_noShift h (by simp [hre, codeInRange_zero]) (by simp [him, codeInRange_zero])
    (by simp [hre]) (by simp [him]) (.inr ⟨hre, him⟩)
  rwa [hre, him, packedExp_zero] at hword

end

/-- Settles O27: the closed form at the instance's parameters and at any others. -/
theorem encFltZeroIsCanonical : Obligations.EncFltZeroIsCanonical := by
  unfold Obligations.EncFltZeroIsCanonical
  exact ⟨fun _ _ hr h hre him => exec_delivers hr (serveEncFlt_zero h hre him), fun _ _ => serveEncFlt_zero⟩

/-- Settles O28: the shift is the shared one, and the sample is not the canonical zero. -/
theorem encFltPacksSharedExponent : Obligations.EncFltPacksSharedExponent := by
  unfold Obligations.EncFltPacksSharedExponent
  intro s r sh hr h hre him hne hfits hleast
  have hsh : expShared r.realCode r.imagCode = sh := expShared_eq_of_least hfits hleast
  have hexp : packedExp Config.params.expBias r.realCode r.imagCode = sh + Config.expBias := by
    rw [packedExp_of_ne_zero _ hne, hsh]
    rfl
  have hfield : sh + Config.expBias < 2 ^ expBits ↔ sh + Config.expBias ≤ 63 := Nat.lt_succ_iff
  have hserve := serveEncFlt_of_legal h hre him
  rw [hexp, hsh, floatWord_mantissas] at hserve
  simp only [hfield] at hserve
  exact exec_delivers hr hserve

/-! ### The array form (rule R120, 60_exceptions.md rule R215) -/

@[simp] theorem andThen_ok {α β : Type} (y : α) (f : α → Except Response β) : andThen (.ok y) f = f y := rfl

@[simp] theorem andThen_error {α β : Type} (e : Response) (f : α → Except Response β) :
    andThen (.error e) f = .error e := rfl

/-- The whole fails exactly when some element does. -/
theorem forEach_fails_iff {α β : Type} {f : α → Except Response β} {xs : List α} :
    (∃ e, forEach f xs = .error e) ↔ ∃ x ∈ xs, ∃ e, f x = .error e := by
  induction xs with
  | nil => simp
  | cons x xs ih =>
    cases hx : f x with
    | error e => simp [forEach, hx]
    | ok y => simp [forEach, hx, andThen_eq_error, ih]

@[simp] theorem okResponse_inj {x y : Result} : okResponse x = okResponse y ↔ x = y := by
  simp [okResponse]

@[simp] theorem faultResponse_ne_okResponse (e : Raise) (y : Result) : faultResponse e ≠ okResponse y := by
  simp [faultResponse, okResponse]

section
variable (P : Params) (i : Instr) (r : Request)

theorem resultOf_responseOf_eq_ok {y : Result} :
    resultOf (responseOf P i r) = .ok y ↔ responseOf P i r = okResponse y := by
  rcases responseOf_ok_or_fault P i r with ⟨x, h⟩ | ⟨e, -, h⟩ <;> rw [h] <;> simp

theorem resultOf_responseOf_fails_iff :
    (∃ e, resultOf (responseOf P i r) = .error e) ↔ (responseOf P i r).status ≠ .ok := by
  rcases responseOf_ok_or_fault P i r with ⟨x, h⟩ | ⟨e, he, h⟩ <;> rw [h]
  · simp
  · simp [he]

end

/-- Settles O30: an `OK` response is its result, and every other response is a fault. -/
theorem encodeFloatArrayIsElementwise : Obligations.EncodeFloatArrayIsElementwise := by
  unfold Obligations.EncodeFloatArrayIsElementwise
  intro P r xs
  have hok (x : Int × Int) (y : Result) :=
    resultOf_responseOf_eq_ok P .encFlt { r with realCode := x.1, imagCode := x.2 } (y := y)
  have hfault (x : Int × Int) :=
    resultOf_responseOf_fails_iff P .encFlt { r with realCode := x.1, imagCode := x.2 }
  simp only [responseOf] at hok hfault
  simp only [encodeFloatArray, forEach_eq_ok, forEach_fails_iff, hok, hfault, implies_true, and_self]

end Sys2Proof.Machine
end

section
/-!
PROOFS. The statements of 42_requantizer.md: illegal widths (rule R140), widening and equal widths (rules R141, R146,
R148), narrowing `RND_FIX` (rule R143) and narrowing `SAT_FIX` (rule R147). The idea: the bits that narrowing keeps are
the signed reading divided by `2^drop`, and the bits it drops are the remainder; the round bit says that the remainder
is at least one half, the sticky bits that it is not exactly that.
-/

namespace Sys2Proof.Machine

/-! ### The operations by their checks (rule R140) -/

/-- An illegal width decides the answer: there is no other check. -/
theorem answer_of_illegalWidths {P : Params} {r : Request} (h : ¬ legalWidths P r) (x : Result) :
    ∃ info, answer (checkWidths P r) x = faulted .configurationError info :=
  answer_faulted_of_first_checks (fun _ => checkWidths_status) (mt checkWidths_passes.1 h) [] x

/-- Settles O35: both operations check the widths and nothing else. -/
theorem badWidthRaisesConfigurationError : Obligations.BadWidthRaisesConfigurationError := by
  unfold Obligations.BadWidthRaisesConfigurationError
  intro i s r hi hr hbad
  suffices ∃ info, responseOf Config.params i r = faulted .configurationError info from
    this.imp fun _ => exec_delivers hr
  rcases hi with rfl | ⟨w, h, rfl⟩
  · exact answer_of_illegalWidths hbad _
  · exact answer_of_illegalWidths hbad _

section
variable {P : Params} {r : Request}

theorem one_le_of_legalWidths (hr : legalWidths P r) : 1 ≤ r.inWidth.toNat ∧ 1 ≤ r.outWidth.toNat := by
  obtain ⟨hin, hout, -⟩ := hr
  omega

/-- A narrowing drops at least one bit. -/
theorem exists_drop (hr : legalWidths P r) (hlt : r.outWidth < r.inWidth) :
    ∃ k, r.inWidth.toNat = r.outWidth.toNat + (k + 1) ∧ (r.inWidth - r.outWidth).toNat = k + 1 := by
  obtain ⟨hin, hout, -⟩ := hr
  exact ⟨(r.inWidth - r.outWidth).toNat - 1, by omega, by omega⟩

theorem serveRndFix_of_legal (hr : legalWidths P r) (w h : Bool) :
    serveRndFix w h P r = okResponse (.word r.outWidth.toNat
      (roundFixed (!h) (!w) r.inWidth.toNat r.outWidth.toNat (tc r.inWidth.toNat r.value))) :=
  answer_ok (checkWidths_passes.2 hr)

theorem serveSatFix_of_legal (hr : legalWidths P r) :
    serveSatFix P r = okResponse (.word r.outWidth.toNat
      (saturateFixed r.inWidth.toNat r.outWidth.toNat (tc r.inWidth.toNat r.value))) :=
  answer_ok (checkWidths_passes.2 hr)

/-! ### Widening (rules R141, R146, R148) -/

/-- Sign extension writes the signed reading at the new width. -/
theorem sext_tc {w : Nat} (hw : 1 ≤ w) (n : Nat) (v : Int) : sext w n (tc w v) = tc n (Int.bmod v (2 ^ w)) := by
  rw [sext, sint_tc hw]

theorem serveRndFix_of_widening (hr : legalWidths P r) (hle : r.inWidth ≤ r.outWidth) (w h : Bool) :
    serveRndFix w h P r = okResponse (.word r.outWidth.toNat
      (tc r.outWidth.toNat (Int.bmod r.value (2 ^ r.inWidth.toNat)))) := by
  rw [serveRndFix_of_legal hr, roundFixed, if_pos (Int.toNat_le_toNat hle), sext_tc (one_le_of_legalWidths hr).1]

theorem serveSatFix_of_widening (hr : legalWidths P r) (hle : r.inWidth ≤ r.outWidth) :
    serveSatFix P r = okResponse (.word r.outWidth.toNat
      (tc r.outWidth.toNat (Int.bmod r.value (2 ^ r.inWidth.toNat)))) := by
  rw [serveSatFix_of_legal hr, saturateFixed, if_pos (Int.toNat_le_toNat hle), sext_tc (one_le_of_legalWidths hr).1]

end

/-- Settles O32: without narrowing both operations are sign extension. -/
theorem wideningSignExtends : Obligations.WideningSignExtends := by
  unfold Obligations.WideningSignExtends
  intro w h s r hs hr hle
  rw [← tc_eq]
  exact ⟨exec_delivers hs (serveRndFix_of_widening hr hle w h), exec_delivers hs (serveSatFix_of_widening hr hle)⟩

/-- Settles O31: sign extension to the same width writes a pattern of that width back. -/
theorem equalWidthsAreIdentity : Obligations.EqualWidthsAreIdentity := by
  unfold Obligations.EqualWidthsAreIdentity
  intro w h s r hs hr heq hlo hhi
  have hpattern : tc r.outWidth.toNat (Int.bmod r.value (2 ^ r.inWidth.toNat)) = r.value.toNat := by
    rw [← heq, tc_bmod _ _ _ le_rfl, tc_eq, Int.emod_eq_of_lt hlo hhi]
  rw [← hpattern]
  exact ⟨exec_delivers hs (serveRndFix_of_widening hr heq.le w h),
    exec_delivers hs (serveSatFix_of_widening hr heq.le)⟩

/-! ### The kept and the dropped bits of a pattern -/

/-- A pattern is written back by its signed reading. -/
theorem tc_sint {w p : Nat} (hw : 1 ≤ w) (hp : p < 2 ^ w) : tc w (sint w p) = p := by
  rw [sint_eq_bmod hw hp, tc_bmod _ _ _ le_rfl, tc_natCast_of_lt hp]

/-- Incrementing a pattern increments its signed reading, modulo `2^W` (rule R149). -/
theorem tc_sint_add_one {w p : Nat} (hw : 1 ≤ w) (hp : p < 2 ^ w) : tc w (sint w p + 1) = increment w p := by
  have hread : sint w p % 2 ^ w = (p : Int) % 2 ^ w := by
    rw [← tc_cast, tc_sint hw hp, ← tc_cast, tc_natCast_of_lt hp]
  rw [increment, ← tc_natCast]
  exact tc_congr (by push_cast; rw [Int.add_emod, hread, ← Int.add_emod])

/-- The top bit of a pattern is clear iff its signed reading is not negative. -/
theorem topBit_eq_zero_iff_sint_nonneg {w p : Nat} (hw : 1 ≤ w) (hp : p < 2 ^ w) :
    bit p (w - 1) = 0 ↔ 0 ≤ sint w p := by
  rw [topBit_eq_zero hw hp, sint_eq_ite hw hp]
  zify at hp ⊢
  split <;> omega

theorem mod_two_pow_succ_eq_add_bit (p k : Nat) : p % 2 ^ (k + 1) = p % 2 ^ k + 2 ^ k * bit p k := Nat.mod_pow_succ

/-- A sticky bit is set iff the bits below the round bit are not all 0 (rule R141). -/
theorem sticky_succ (k p : Nat) : sticky (k + 1) p = decide (p % 2 ^ k ≠ 0) := by
  cases k with
  | zero => simp [sticky, Nat.mod_one]
  | succ j => simp [sticky, slice_zero]

section
variable {outW d k p : Nat}

theorem kept_lt (hp : p < 2 ^ (outW + d)) : p >>> d < 2 ^ outW := by
  have hlt := shiftRight_lt (Nat.le_add_right outW d) hp
  rwa [Nat.add_sub_cancel_left] at hlt

/-- The kept bits keep the sign bit. -/
theorem topBit_kept (ho : 1 ≤ outW) : bit (p >>> d) (outW - 1) = bit p (outW + d - 1) := by
  rw [bit, bit, Nat.shiftRight_eq_div_pow, Nat.div_div_eq_div_mul, ← pow_add,
    show d + (outW - 1) = outW + d - 1 by omega]

/-- The signed reading is that of the kept bits times `2^drop`, plus the dropped bits. -/
theorem sint_eq_kept_add_dropped (ho : 1 ≤ outW) (hp : p < 2 ^ (outW + d)) :
    sint (outW + d) p = sint outW (p >>> d) * 2 ^ d + (p % 2 ^ d : Nat) := by
  have hhalf : outW + d - 1 = outW - 1 + d := by omega
  have htop : p < 2 ^ (outW + d - 1) ↔ p >>> d < 2 ^ (outW - 1) := by
    rw [hhalf, pow_add, Nat.shiftRight_eq_div_pow, Nat.div_lt_iff_lt_mul (by positivity)]
  have hsplit : ((p >>> d : Nat) : Int) * 2 ^ d + (p % 2 ^ d : Nat) = p := by
    rw [Nat.shiftRight_eq_div_pow]
    exact_mod_cast Nat.div_add_mod' p (2 ^ d)
  rw [sint_eq_ite (by omega) hp, sint_eq_ite ho (kept_lt hp), pow_add]
  simp only [htop]
  split
  · exact hsplit.symm
  · rw [sub_mul]; omega

/-- Rounding up adds the round bit to the kept bits. -/
theorem shiftRoundUp_sint (ho : 1 ≤ outW) (hp : p < 2 ^ (outW + (k + 1))) :
    shiftRoundUp (k + 1) (sint (outW + (k + 1)) p) = sint outW (p >>> (k + 1)) + bit p k := by
  have hpos : (0 : Int) < 2 ^ (k + 1) := by positivity
  have hdouble : (2 : Int) ^ (k + 1) = 2 * 2 ^ k := pow_succ' 2 k
  have hlow : p % 2 ^ k < 2 ^ k := Nat.mod_lt _ (by positivity)
  rw [shiftRoundUp_succ, sint_eq_kept_add_dropped ho hp, Int.ediv_eq_iff_of_pos hpos,
    mod_two_pow_succ_eq_add_bit, add_mul]
  zify at hlow
  rcases bit_le_one p k with hbit | hbit <;> rw [hbit] <;> push_cast <;> omega

/-- Rounding the negated reading up, and negating again, adds the round bit unless the dropped bits are a tie. -/
theorem neg_shiftRoundUp_neg_sint (ho : 1 ≤ outW) (hp : p < 2 ^ (outW + (k + 1))) :
    -shiftRoundUp (k + 1) (-sint (outW + (k + 1)) p) =
      sint outW (p >>> (k + 1)) + if sticky (k + 1) p then (bit p k : Int) else 0 := by
  have hpos : (0 : Int) < 2 ^ (k + 1) := by positivity
  have hdouble : (2 : Int) ^ (k + 1) = 2 * 2 ^ k := pow_succ' 2 k
  have hlow : p % 2 ^ k < 2 ^ k := Nat.mod_lt _ (by positivity)
  rw [neg_eq_iff_eq_neg, shiftRoundUp_succ, sint_eq_kept_add_dropped ho hp, Int.ediv_eq_iff_of_pos hpos,
    mod_two_pow_succ_eq_add_bit, neg_mul, add_mul, sticky_succ]
  generalize p % 2 ^ k = low at hlow ⊢
  zify at hlow
  rcases bit_le_one p k with hbit | hbit <;> rw [hbit]
  · simp only [Nat.cast_zero, ite_self]; push_cast; omega
  · simp only [decide_eq_true_eq]; split <;> push_cast <;> omega

end

/-! ### Narrowing `RND_FIX` (rule R143) -/

/-- The signed reading over `2^drop` rounded to nearest, ties up, or away from zero with `H` (rule R143). -/
def roundShift (h : Bool) (drop : Nat) (x : Int) : Int := if h then shiftRoundAway drop x else shiftRoundUp drop x

/-- The rounded value as `RND_FIX` delivers it: wrapped with `W`, else kept at the positive maximum (rule R143). -/
def keepAtMax (w : Bool) (outW : Nat) (y : Int) : Int := if w then y else min y (2 ^ (outW - 1) - 1)

/-- The candidate of a pattern that is not negative has all magnitude bits set iff it is the positive maximum. -/
theorem atMax_eq_true_iff {w q : Nat} (hw : 1 ≤ w) (hq : q < 2 ^ (w - 1)) :
    atMax w q = true ↔ (q : Int) = 2 ^ (w - 1) - 1 := by
  have hone : 1 ≤ 2 ^ (w - 1) := Nat.one_le_two_pow
  have hmask : (q : Int) = 2 ^ (w - 1) - 1 ↔ q = mask (w - 1) := by rw [mask]; zify [hone]
  rw [hmask, atMax]
  split
  · next h1 => subst h1; simpa [mask] using hq
  · rw [slice_zero, decide_eq_true_eq, show w - 2 + 1 = w - 1 by omega, Nat.mod_eq_of_lt hq]

theorem keepAtMax_of_lt (w : Bool) {outW : Nat} {y : Int} (hy : y < 2 ^ (outW - 1)) : keepAtMax w outW y = y := by
  cases w with
  | true => rfl
  | false => exact min_eq_left (by omega)

/-- Adding 1 to a candidate that is not negative: the positive maximum is kept unless `W` is set, any other candidate is
incremented (rule R141). -/
theorem tc_keepAtMax_add_one (w : Bool) {outW q : Nat} (ho : 1 ≤ outW) (hq : q < 2 ^ (outW - 1)) :
    tc outW (keepAtMax w outW (sint outW q + 1)) = if atMax outW q && !w then q else increment outW q := by
  have hfits : q < 2 ^ outW := hq.trans_le (Nat.pow_le_pow_right (by decide) (Nat.sub_le _ _))
  have hread : sint outW q = q := by rw [sint_eq_ite ho hfits, if_pos hq]
  have hmax := atMax_eq_true_iff ho hq
  have hinc := tc_sint_add_one ho hfits
  rw [hread] at hinc ⊢
  cases w with
  | true => simpa [keepAtMax] using hinc
  | false =>
    simp only [Bool.not_false, Bool.and_true, hmax]
    zify at hq
    split
    · next htop =>
      have hkept : keepAtMax false outW (q + 1) = q := (min_eq_right (by omega)).trans htop.symm
      rw [hkept, tc_natCast_of_lt hfits]
    · next htop => rw [keepAtMax_of_lt _ (by omega), hinc]

section
variable {outW k p : Nat}

/-- Rounding adds 1 to the kept bits where the rule's cases increment them (rule R141). -/
theorem roundShift_sint (h : Bool) (ho : 1 ≤ outW) (hp : p < 2 ^ (outW + (k + 1))) :
    roundShift h (k + 1) (sint (outW + (k + 1)) p) =
      if bit p k = 0 then sint outW (p >>> (k + 1))
      else if bit p (outW + (k + 1) - 1) = 0 then sint outW (p >>> (k + 1)) + 1
      else if h && !sticky (k + 1) p then sint outW (p >>> (k + 1))
      else sint outW (p >>> (k + 1)) + 1 := by
  have hsign := topBit_eq_zero_iff_sint_nonneg (by omega) hp
  simp only [roundShift, shiftRoundAway, shiftRoundUp_sint ho hp, neg_shiftRoundUp_neg_sint ho hp, hsign]
  rcases bit_le_one p k with hround | hround
  · simp [hround]
  · cases h <;> cases sticky (k + 1) p <;> simp [hround]

/-- Narrowing writes the rounded signed reading, kept at the positive maximum unless `W` is set (rule R143). -/
theorem roundNarrow_eq_tc (w h : Bool) (ho : 1 ≤ outW) (hp : p < 2 ^ (outW + (k + 1))) :
    roundNarrow (!h) (!w) (outW + (k + 1)) outW p =
      tc outW (keepAtMax w outW (roundShift h (k + 1) (sint (outW + (k + 1)) p))) := by
  have hq := kept_lt hp
  have hmax : sint outW (p >>> (k + 1)) < 2 ^ (outW - 1) := (sint_bounds ho hq).2
  have hkept := tc_sint ho hq
  have hinc := tc_sint_add_one ho hq
  rw [roundShift_sint h ho hp, roundNarrow, Nat.add_sub_cancel_left, Nat.add_sub_cancel, Bool.not_not]
  by_cases hround : bit p k = 0
  · simp only [if_pos hround, keepAtMax_of_lt w hmax, hkept]
  simp only [if_neg hround]
  rw [← topBit_kept ho]
  by_cases hsign : bit (p >>> (k + 1)) (outW - 1) = 0
  · simp only [if_pos hsign]
    exact (tc_keepAtMax_add_one w ho ((topBit_eq_zero ho hq).1 hsign)).symm
  · have hneg : ¬ 0 ≤ sint outW (p >>> (k + 1)) := mt (topBit_eq_zero_iff_sint_nonneg ho hq).2 hsign
    have hpos : (0 : Int) < 2 ^ (outW - 1) := by positivity
    simp only [if_neg hsign]
    split
    · rw [keepAtMax_of_lt w hmax, hkept]
    · rw [keepAtMax_of_lt w (by omega), hinc]

end

/-- Settles O33: the dropped bits and the sign decide the increment. -/
theorem rndFixRoundsToNearest : Obligations.RndFixRoundsToNearest := by
  unfold Obligations.RndFixRoundsToNearest
  intro w h s r hs hr hlt
  obtain ⟨hin, hout⟩ := one_le_of_legalWidths hr
  obtain ⟨k, hk, hdrop⟩ := exists_drop hr hlt
  refine ⟨_, rfl, exec_delivers hs ((serveRndFix_of_legal hr w h).trans ?_)⟩
  rw [roundFixed, if_neg (by omega), hk, hdrop, roundNarrow_eq_tc w h hout (tc_lt _ _), sint_tc (hk ▸ hin), tc_eq]
  rfl

/-! ### Narrowing `SAT_FIX` (rule R147) -/

section
variable {outW k p : Nat}

/-- The magnitude bits that narrowing cuts off (rule R146). -/
theorem cutBits_eq (ho : 1 ≤ outW) (p k : Nat) :
    slice p (outW + (k + 1) - 2) (outW - 1) = p / 2 ^ (outW - 1) % 2 ^ (k + 1) := by
  rw [slice, show outW + (k + 1) - 2 - (outW - 1) + 1 = k + 1 by omega]

theorem two_pow_pred_add (ho : 1 ≤ outW) (k : Nat) : 2 ^ (outW + (k + 1) - 1) = 2 ^ (k + 1) * 2 ^ (outW - 1) := by
  rw [← pow_add, show k + 1 + (outW - 1) = outW + (k + 1) - 1 by omega]

/-- The cut bits of a pattern that is not negative are all 0 iff it lies below the positive bound. -/
theorem cutBits_eq_zero_iff (ho : 1 ≤ outW) (hp : p < 2 ^ (outW + (k + 1) - 1)) :
    slice p (outW + (k + 1) - 2) (outW - 1) = 0 ↔ p < 2 ^ (outW - 1) := by
  have hcut : p / 2 ^ (outW - 1) < 2 ^ (k + 1) := by
    rwa [Nat.div_lt_iff_lt_mul (by positivity), ← two_pow_pred_add ho]
  rw [cutBits_eq ho, Nat.mod_eq_of_lt hcut, Nat.div_eq_zero_iff_lt (by positivity)]

/-- The cut bits of a negative pattern are all 1 iff it lies at or above the pattern of the negative bound. -/
theorem cutBits_eq_mask_iff (ho : 1 ≤ outW) (hp : p < 2 ^ (outW + (k + 1))) (hneg : 2 ^ (outW + (k + 1) - 1) ≤ p) :
    slice p (outW + (k + 1) - 2) (outW - 1) = mask (k + 1) ↔ 2 ^ (outW + (k + 1)) ≤ p + 2 ^ (outW - 1) := by
  have hunit : 0 < 2 ^ (outW - 1) := by positivity
  have hdouble : 2 ^ (outW + (k + 1)) = 2 * 2 ^ (k + 1) * 2 ^ (outW - 1) := by
    rw [mul_assoc, ← two_pow_pred_add ho, ← pow_succ', Nat.sub_add_cancel (by omega)]
  have hlo : 2 ^ (k + 1) ≤ p / 2 ^ (outW - 1) := by rwa [Nat.le_div_iff_mul_le hunit, ← two_pow_pred_add ho]
  have hhi : p / 2 ^ (outW - 1) < 2 * 2 ^ (k + 1) := by rwa [Nat.div_lt_iff_lt_mul hunit, ← hdouble]
  have hmod : p / 2 ^ (outW - 1) % 2 ^ (k + 1) = p / 2 ^ (outW - 1) - 2 ^ (k + 1) := by
    rw [Nat.mod_eq_sub_mod hlo, Nat.mod_eq_of_lt (by omega)]
  have htop : 2 * 2 ^ (k + 1) ≤ p / 2 ^ (outW - 1) + 1 ↔ 2 ^ (outW + (k + 1)) ≤ p + 2 ^ (outW - 1) := by
    rw [← Nat.add_div_right _ hunit, Nat.le_div_iff_mul_le hunit, hdouble]
  rw [cutBits_eq ho, hmod, mask, ← htop]
  omega

/-- The test of `SAT_FIX`: the signed reading fits `out_width` bits (rule R146). -/
theorem cutBits_equal_sign_iff (ho : 1 ≤ outW) (hp : p < 2 ^ (outW + (k + 1))) :
    ((bit p (outW + (k + 1) - 1) = 0 ∧ slice p (outW + (k + 1) - 2) (outW - 1) = 0) ∨
      (bit p (outW + (k + 1) - 1) = 1 ∧ slice p (outW + (k + 1) - 2) (outW - 1) = mask (k + 1))) ↔
    -2 ^ (outW - 1) ≤ sint (outW + (k + 1)) p ∧ sint (outW + (k + 1)) p < 2 ^ (outW - 1) := by
  have hw : 1 ≤ outW + (k + 1) := by omega
  have hunit : (0 : Int) < 2 ^ (outW - 1) := by positivity
  rw [topBit_eq_zero hw hp, topBit_eq_one hw hp, sint_eq_ite hw hp]
  by_cases hsign : p < 2 ^ (outW + (k + 1) - 1)
  · have hcut := cutBits_eq_zero_iff ho hsign
    zify at hcut
    simp only [hsign, true_and, not_le.2 hsign, false_and, or_false, if_true]
    omega
  · have hcut := cutBits_eq_mask_iff ho hp (not_lt.1 hsign)
    zify at hcut
    simp only [hsign, false_and, not_lt.1 hsign, true_and, false_or, if_false]
    zify at hp
    omega

/-- The low bits of a pattern are those of its signed reading. -/
theorem lowBits_eq_tc_sint (ho : 1 ≤ outW) (hp : p < 2 ^ (outW + (k + 1))) :
    slice p (outW - 1) 0 = tc outW (sint (outW + (k + 1)) p) := by
  rw [sint_eq_bmod (by omega) hp, tc_bmod _ _ _ (Nat.le_add_right _ _), tc_natCast, slice_zero, Nat.sub_add_cancel ho]

/-- The positive bound is its own pattern. -/
theorem tc_max (ho : 1 ≤ outW) : tc outW (2 ^ (outW - 1) - 1) = 2 ^ (outW - 1) - 1 := by
  have hdouble := two_pow_pred ho
  have hunit : (0 : Int) < 2 ^ (outW - 1) := by positivity
  zify [Nat.one_le_two_pow (n := outW - 1)]
  rw [tc_cast, Int.emod_eq_of_lt] <;> omega

/-- The pattern of the negative bound is the sign bit alone. -/
theorem tc_min (ho : 1 ≤ outW) : tc outW (-2 ^ (outW - 1)) = 2 ^ (outW - 1) := by
  have hdouble := two_pow_pred ho
  have hunit : (0 : Int) < 2 ^ (outW - 1) := by positivity
  zify
  rw [tc_cast, ← Int.add_emod_right, Int.emod_eq_of_lt] <;> omega

/-- Narrowing writes the signed reading clamped to the signed range of `out_width` bits (rule R147). -/
theorem saturateNarrow_eq_tc (ho : 1 ≤ outW) (hp : p < 2 ^ (outW + (k + 1))) :
    saturateNarrow (outW + (k + 1)) outW p =
      tc outW (max (-2 ^ (outW - 1)) (min (2 ^ (outW - 1) - 1) (sint (outW + (k + 1)) p))) := by
  have hunit : (0 : Int) < 2 ^ (outW - 1) := by positivity
  rw [saturateNarrow, Nat.add_sub_cancel_left, lowBits_eq_tc_sint ho hp]
  simp only [cutBits_equal_sign_iff ho hp]
  simp only [topBit_eq_zero_iff_sint_nonneg (show 1 ≤ outW + (k + 1) by omega) hp]
  split_ifs with hfits hsign
  · rw [min_eq_right (by omega), max_eq_right hfits.1]
  · rw [min_eq_left (by omega), max_eq_right (by omega), tc_max ho]
  · rw [min_eq_right (by omega), max_eq_left (by omega), tc_min ho]

end

/-- Settles O34: the clamped reading fits `out_width` bits, so its pattern is read as it. -/
theorem satFixClampsSignedReading : Obligations.SatFixClampsSignedReading := by
  unfold Obligations.SatFixClampsSignedReading
  intro s r hs hr hlt
  obtain ⟨hin, hout⟩ := one_le_of_legalWidths hr
  obtain ⟨k, hk, -⟩ := exists_drop hr hlt
  refine ⟨_, exec_delivers hs (serveSatFix_of_legal hr), saturateFixed_lt _ hout, ?_⟩
  have hunit : (0 : Int) < 2 ^ (r.outWidth.toNat - 1) := by positivity
  rw [saturateFixed, if_neg (by omega), hk, saturateNarrow_eq_tc hout (tc_lt _ _), sint_tc (hk ▸ hin),
    ← sint_eq_bmod hout (tc_lt _ _), sint_tc hout, bmod_two_pow_of_mem hout] <;> omega

end Sys2Proof.Machine
end

section
/-!
PROOFS. The statements of 43_packetizer.md about ranges: the length checks (rule R161), the scan (rules R162, R163) and
its streaming form (rule R168). The idea: the frame detector, idle at the index where a packet is sought, leaves its state
alone up to the SOP, opens there, and closes at the EOP, idle again at the packet's end; so, packet by packet, it appends
the ranges of the scan.
-/

namespace Sys2Proof.Machine

/-! ### Operands that fail a check (rule R161) -/

section
variable {P : Params} {n : Nat} {valid sop eop : Option (List Bool)}

/-- The `LENMAX` check comes first, so too much data decides the answer (60_exceptions.md rule R214). -/
theorem answer_checkPackets_of_tooLong (h : ¬ withinMax (lenmaxOf P) n) (x : Result) :
    answer (checkPackets P n valid sop eop) x = faulted .configurationError (.operand .count) := by
  have hexceeds : exceeds (lenmaxOf P) n = true := by
    simpa only [Bool.not_eq_false] using mt exceeds_eq_false.1 h
  simp only [answer, checkPackets, hexceeds, failIf_true, firstFailure_some, faultResponse_eq_faulted]

/-- Once `LENMAX` admits the data, only the lengths are left to fail. -/
theorem answer_checkPackets_of_wrongLength (hlen : withinMax (lenmaxOf P) n) (h : ¬ signalsFit n [valid, sop, eop])
    (x : Result) : ∃ info, answer (checkPackets P n valid sop eop) x = faulted .lengthMismatchError info := by
  have hfail : ¬ ∀ c ∈ checkPackets P n valid sop eop, c = none := fun hp => h (checkPackets_passes.1 hp).2
  rcases answer_cases (checkPackets P n valid sop eop) x with ⟨hp, -⟩ | ⟨e, he, hx⟩
  · exact absurd hp hfail
  · have hst : e.status = .lengthMismatchError := by
      simp only [checkPackets, exceeds_eq_false.2 hlen, failIf_false, List.mem_cons, List.not_mem_nil, or_false,
        reduceCtorEq, false_or] at he
      rcases he with he | he | he <;> exact checkLength_status he.symm
    exact ⟨e.info, by rw [hx, faultResponse_eq_faulted, hst]⟩

/-- A signal that is not supplied is not checked. -/
theorem signalsFit_none_cons {signals : List (Option (List Bool))} :
    signalsFit n (none :: signals) ↔ signalsFit n signals := by
  simp [signalsFit]

end

/-- Settles O46: all four operations check `LENMAX` first. -/
theorem tooLongRaisesConfigurationErrorFirst : Obligations.TooLongRaisesConfigurationErrorFirst := by
  unfold Obligations.TooLongRaisesConfigurationErrorFirst
  intro P e sp v r
  refine ⟨fun h => ?_, fun h => ?_⟩
  · rw [servePktRanges, answer_checkPackets_of_tooLong h]
    exact ⟨rfl, rfl⟩
  · rw [serveFiltAll, serveFiltList, serveFiltOne, checkFilter, answer_checkPackets_of_tooLong h,
      answer_checkPackets_of_tooLong h, answer_checkPackets_of_tooLong h]
    exact ⟨rfl, rfl, rfl, rfl, rfl, rfl⟩

/-- Settles O45: each operation checks the packet operands and nothing else. -/
theorem wrongSignalLengthRaisesLengthMismatch : Obligations.WrongSignalLengthRaisesLengthMismatch := by
  unfold Obligations.WrongSignalLengthRaisesLengthMismatch
  intro e sp v s r hr
  refine ⟨fun hlen hbad => ?_, fun hlen hbad i hi => ?_⟩
  · exact (answer_checkPackets_of_wrongLength hlen (mt signalsFit_none_cons.1 hbad) _).imp
      fun _ => exec_delivers (i := .pktRanges e sp) hr
  · suffices ∃ info, responseOf Config.params i r = faulted .lengthMismatchError info from
      this.imp fun _ => exec_delivers hr
    rcases hi with rfl | rfl | rfl <;> exact answer_checkPackets_of_wrongLength hlen hbad _

/-! ### The ranges of the scan (rules R162, R163) -/

/-- What `PKT_RANGES` answers to operands that pass its checks. -/
theorem exec_pktRanges {e sp : Bool} {s : State} {r : Request} (hr : s.inFlight = some r)
    (hlen : withinMax (lenmaxOf Config.params) r.count)
    (hfit : signalsFit r.count [supplied sp r.sop, supplied e r.eop]) :
    exec (.pktRanges e sp) s =
      .next (delivered (okResponse (.ranges (packetRanges r.count (supplied sp r.sop) (supplied e r.eop))))) :=
  exec_delivers hr (answer_ok (checkPackets_passes.2 ⟨hlen, signalsFit_none_cons.2 hfit⟩))

/-- Settles O37: the loop of rule R162 computes the ranges of the scan. -/
theorem pktRangesFollowScan : Obligations.PktRangesFollowScan := by
  unfold Obligations.PktRangesFollowScan
  exact fun _ _ _ _ hr hlen hfit => ⟨_, exec_pktRanges hr hlen hfit, packetRanges_chain _ _ _⟩

section
variable {sop eop : Option (List Bool)} {n i : Nat} {rs : List PacketRange}

/-- No packet is sought after the end of the data. -/
theorem packetChain_eq_nil (h : packetChain sop eop n i rs) (hi : n ≤ i) : rs = [] := by
  cases rs with
  | nil => rfl
  | cons p rest => exact absurd h.1 (Nat.not_lt.2 hi)

/-- Without an EOP signal the first packet runs to the end of the data, so no other follows. -/
theorem packetChain_length_le_one (h : packetChain sop none n i rs) : rs.length ≤ 1 := by
  cases rs with
  | nil => exact Nat.zero_le 1
  | cons p rest =>
    obtain ⟨-, -, hstop, hrest⟩ := h
    simp [packetChain_eq_nil hrest (Nat.le_of_eq hstop.symm)]

/-- Without an SOP signal each packet starts where the one before it ends, so the ranges tile what is left of the data. -/
theorem packetChain_tiles (h : packetChain none eop n i rs) :
    rs.flatMap (fun p => List.range' p.start (p.stop - p.start)) = List.range' i (n - i) := by
  induction rs generalizing i with
  | nil =>
    rcases h with hi | hnone
    · simp [Nat.sub_eq_zero_of_le hi]
    · exact absurd rfl (hnone i)
  | cons p rest ih =>
    obtain ⟨hi, rfl, hstop, hrest⟩ := h
    obtain ⟨hlt, hle⟩ := stopsAt_bounds hstop hi
    rw [List.flatMap_cons, ih hrest]
    obtain ⟨a, ha⟩ := Nat.exists_eq_add_of_le hlt.le
    obtain ⟨b, rfl⟩ := Nat.exists_eq_add_of_le hle
    rw [ha, show p.start + a - p.start = a by omega, show p.start + a + b - (p.start + a) = b by omega,
      show p.start + a + b - p.start = a + b by omega, List.range'_append_1]

/-- Without any signal all the data is one packet. -/
theorem packetChain_unsignalled (h : packetChain none none n 0 rs) :
    rs = if n = 0 then [] else [{ start := 0, stop := n }] := by
  cases rs with
  | nil =>
    rcases h with hn | hnone
    · simp [Nat.le_zero.1 hn]
    · exact absurd rfl (hnone 0)
  | cons p rest =>
    obtain ⟨hn, hstart, hstop, hrest⟩ := h
    obtain ⟨start, stop⟩ := p
    obtain rfl : start = 0 := hstart
    obtain rfl : stop = n := hstop
    rw [packetChain_eq_nil hrest le_rfl, if_neg hn.ne']

end

/-- Settles O39: the bounds and the order hold of every scan, the rest of one that lacks a signal. -/
theorem pktRangesAreOrderedPackets : Obligations.PktRangesAreOrderedPackets := by
  unfold Obligations.PktRangesAreOrderedPackets
  intro e sp s r hr hlen hfit
  have hchain := packetRanges_chain r.count (supplied sp r.sop) (supplied e r.eop)
  refine ⟨_, exec_pktRanges hr hlen hfit, fun p => packetRanges_bounds, (packetChain_bounds hchain).2, ?_, ?_, ?_⟩
  · rintro rfl rfl
    exact packetChain_unsignalled hchain
  · rintro rfl
    exact packetChain_length_le_one hchain
  · rintro rfl
    simpa only [Nat.sub_zero, ← List.range_eq_range'] using packetChain_tiles hchain

/-! ### One index of the frame detector (rule R168) -/

section
variable {sop eop : Option (List Bool)} {sig : List Bool} {d : Detector} {j : Nat}

/-- Outside a packet, an index without an SOP changes nothing. -/
theorem detectorStep_of_no_sop (hd : d.inPkt = false) (h : ¬ assertedIn sig j) :
    detectorStep (some sig) eop d j = d := by
  have hat : assertedAt sig j = false := by simpa [← assertedAt_iff] using h
  simp [detectorStep, hd, hat]

/-- Outside a packet, an SOP opens one before the EOP test. -/
theorem detectorStep_of_sop (hd : d.inPkt = false) (h : assertedIn sig j) :
    detectorStep (some sig) eop d j = detectorStep (some sig) eop { d with inPkt := true, start := j } j := by
  simp [detectorStep, hd, assertedAt_iff.2 h]

/-- Inside a packet, an index without an EOP changes nothing. -/
theorem detectorStep_of_no_eop (hd : d.inPkt = true) (h : ∀ sig, eop = some sig → ¬ assertedIn sig j) :
    detectorStep sop eop d j = d := by
  have hat : (eop.any fun sig => assertedAt sig j) = false := by
    cases eop with
    | none => rfl
    | some sig => simpa [← assertedAt_iff] using h sig rfl
  simp [detectorStep, hd, hat]

/-- Inside a packet, an EOP emits its range. -/
theorem detectorStep_of_eop (hd : d.inPkt = true) (h : assertedIn sig j) :
    detectorStep sop (some sig) d j =
      { inPkt := sop.isNone, start := j + 1, out := d.out ++ [{ start := d.start, stop := j + 1 }] } := by
  simp [detectorStep, hd, assertedAt_iff.2 h]

end

/-! ### The frame detector over a stretch of indices -/

/-- The detector's state after the indices `a .. b - 1`. -/
def runDetector (sop eop : Option (List Bool)) (a b : Nat) (d : Detector) : Detector :=
  (List.range' a (b - a)).foldl (detectorStep sop eop) d

/-- What the detector has emitted after the last index: a packet under way ends with the data (rule R168). -/
def Detector.ranges (n : Nat) (d : Detector) : List PacketRange :=
  if d.inPkt && decide (d.start < n) then d.out ++ [{ start := d.start, stop := n }] else d.out

/-- The detector that has emitted `out` and seeks the next packet from `i` on: a packet is under way already without an SOP
signal. -/
def Detector.seeking (sop : Option (List Bool)) (i : Nat) (out : List PacketRange) : Detector :=
  { inPkt := sop.isNone, start := i, out := out }

/-- The detector that has emitted `out` and is inside a packet that starts at `k`. -/
def Detector.inside (k : Nat) (out : List PacketRange) : Detector :=
  { inPkt := true, start := k, out := out }

theorem streamRanges_eq_runDetector (n : Nat) (sop eop : Option (List Bool)) :
    streamRanges n sop eop = (runDetector sop eop 0 n (.seeking sop 0 [])).ranges n := by
  rw [runDetector, Nat.sub_zero, ← List.range_eq_range']
  rfl

section
variable {sop eop : Option (List Bool)} {d : Detector} {n i a b c k stop : Nat} {out rs : List PacketRange}

theorem runDetector_self : runDetector sop eop a a d = d := by simp [runDetector]

theorem runDetector_of_le (h : b ≤ a) : runDetector sop eop a b d = d := by simp [runDetector, Nat.sub_eq_zero_of_le h]

theorem runDetector_of_lt (h : a < b) :
    runDetector sop eop a b d = runDetector sop eop (a + 1) b (detectorStep sop eop d a) := by
  rw [runDetector, show b - a = b - (a + 1) + 1 by omega, List.range'_succ, List.foldl_cons, runDetector]

theorem runDetector_trans (hab : a ≤ b) (hbc : b ≤ c) :
    runDetector sop eop a c d = runDetector sop eop b c (runDetector sop eop a b d) := by
  induction hab using Nat.decreasingInduction generalizing d with
  | self => rw [runDetector_self]
  | of_succ a hlt ih => rw [runDetector_of_lt (hlt.trans_le hbc), ih, runDetector_of_lt hlt]

/-- A state that no index of the stretch changes is kept. -/
theorem runDetector_of_fixed (h : ∀ j, a ≤ j → j < b → detectorStep sop eop d j = d) :
    runDetector sop eop a b d = d := by
  rcases Nat.le_total b a with hba | hab
  · exact runDetector_of_le hba
  · induction hab using Nat.decreasingInduction with
    | self => exact runDetector_self
    | of_succ a hlt ih =>
      rw [runDetector_of_lt hlt, h a le_rfl hlt]
      exact ih fun j hj => h j (by omega)

/-! ### The frame detector over one packet -/

/-- Up to the start of the next packet the detector keeps its state, and there it is inside the packet. -/
theorem runDetector_seeking_of_startsAt (hk : startsAt sop n i k) (hstop : k < stop) :
    runDetector sop eop i stop (.seeking sop i out) = runDetector sop eop k stop (.inside k out) := by
  cases sop with
  | none =>
    obtain rfl : k = i := hk
    rfl
  | some sig =>
    obtain ⟨hik, -, hsop, hbefore⟩ := hk
    have hwait : runDetector (some sig) eop i k (.seeking (some sig) i out) = .seeking (some sig) i out :=
      runDetector_of_fixed fun j hij hjk => detectorStep_of_no_sop rfl (hbefore j hij hjk)
    rw [runDetector_trans hik hstop.le, hwait, runDetector_of_lt hstop, detectorStep_of_sop rfl hsop,
      runDetector_of_lt hstop]
    rfl

/-- Inside a packet the detector keeps its state where there is no EOP. -/
theorem runDetector_inside_of_no_eop (h : ∀ sig, eop = some sig → ∀ j, k ≤ j → j < stop → ¬ assertedIn sig j) :
    runDetector sop eop k stop (.inside k out) = .inside k out :=
  runDetector_of_fixed fun j hkj hj => detectorStep_of_no_eop rfl fun sig hsig => h sig hsig j hkj hj

/-- From the start of a packet to its end: the detector emits it and seeks the next one from there, or has not met an EOP
when the data ends. -/
theorem runDetector_inside_of_stopsAt (h : stopsAt eop n k stop) :
    runDetector sop eop k stop (.inside k out) = .seeking sop stop (out ++ [{ start := k, stop := stop }]) ∨
      stop = n ∧ runDetector sop eop k stop (.inside k out) = .inside k out := by
  cases eop with
  | none => exact .inr ⟨h, runDetector_inside_of_no_eop nofun⟩
  | some sig =>
    rcases h with ⟨j, rfl, hkj, -, heop, hbefore⟩ | ⟨rfl, hnone⟩
    · left
      have hwait : runDetector sop (some sig) k j (.inside k out) = .inside k out :=
        runDetector_inside_of_no_eop fun _ hsig => Option.some.inj hsig ▸ hbefore
      rw [runDetector_trans hkj (Nat.le_succ j), hwait, runDetector_of_lt (Nat.lt_succ_self j), runDetector_self,
        detectorStep_of_eop rfl heop]
      rfl
    · exact .inr ⟨rfl, runDetector_inside_of_no_eop fun _ hsig => Option.some.inj hsig ▸ hnone⟩

/-- Where no packet starts any more, the detector emits nothing more. -/
theorem runDetector_seeking_of_no_start (h : n ≤ i ∨ ∀ k, ¬ startsAt sop n i k) :
    (runDetector sop eop i n (.seeking sop i out)).ranges n = out := by
  rcases h with hi | hnone
  · simp [runDetector_of_le hi, Detector.ranges, Detector.seeking, Nat.not_lt.2 hi]
  · cases sop with
    | none => exact absurd rfl (hnone i)
    | some sig =>
      have hfind : findFrom sig n i = none :=
        Option.eq_none_iff_forall_ne_some.2 fun k hk => hnone k (findFrom_some hk)
      rw [runDetector_of_fixed fun j hij hjn => detectorStep_of_no_sop rfl (findFrom_none hfind j hij hjn)]
      rfl

/-- The detector that seeks from `i` on appends the ranges that the scan finds from `i` on. -/
theorem runDetector_seeking_of_packetChain (h : packetChain sop eop n i rs) :
    (runDetector sop eop i n (.seeking sop i out)).ranges n = out ++ rs := by
  induction rs generalizing i out with
  | nil => rw [runDetector_seeking_of_no_start h, List.append_nil]
  | cons p rest ih =>
    obtain ⟨hi, hstart, hstop, hrest⟩ := h
    obtain ⟨hle, hlt⟩ := startsAt_bounds hstart hi
    obtain ⟨hne, hn⟩ := stopsAt_bounds hstop hlt
    rw [runDetector_trans (hle.trans hne.le) hn, runDetector_seeking_of_startsAt hstart hne]
    rcases runDetector_inside_of_stopsAt (sop := sop) (out := out) hstop with hrun | ⟨hend, hrun⟩
    · rw [hrun, ih hrest, List.append_assoc, List.singleton_append]
    · rw [hrun, hend, runDetector_self, packetChain_eq_nil hrest hend.ge, ← hend]
      simp [Detector.ranges, Detector.inside, hne]

end

/-- Settles O38, by induction on the ranges of the scan: the detector emits each of them in turn. -/
theorem pktRangesEqualStreamingDetector : Obligations.PktRangesEqualStreamingDetector := by
  unfold Obligations.PktRangesEqualStreamingDetector
  intro e sp s r hr hlen hfit
  rw [exec_pktRanges hr hlen hfit, streamRanges_eq_runDetector,
    runDetector_seeking_of_packetChain (packetRanges_chain _ _ _), List.nil_append]

end Sys2Proof.Machine
end

section
/-!
PROOFS. The statements of 43_packetizer.md about the filters (rules R164 to R167): each answers its part of the valid
samples of the scanned ranges.
-/

namespace Sys2Proof.Machine

section
variable {e sp v : Bool} {s : State} {r : Request} (hr : s.inFlight = some r)
  (hlen : withinMax (lenmaxOf Config.params) r.samples.length)
  (hfit : signalsFit r.samples.length [supplied v r.valid, supplied sp r.sop, supplied e r.eop])
include hfit

/-- A validity signal that passes the check is as long as the samples. -/
theorem valid_length_of_signalsFit : ∀ bits, supplied v r.valid = some bits → bits.length = r.samples.length :=
  fun bits h => hfit bits (by simp [h])

include hr hlen

/-- What `FILT_ALL` answers to operands that pass its checks (rule R164). -/
theorem exec_filtAll : exec (.filtAll e sp v) s = .next (delivered (okResponse (.samples
    ((filterRanges e sp r).flatMap (validOnly r.samples (supplied v r.valid)))))) := by
  rw [← filterAll_eq_flatMap (valid_length_of_signalsFit hfit)]
  exact exec_delivers hr (answer_ok (checkFilter_passes.2 ⟨hlen, hfit⟩))

/-- What `FILT_LIST` answers to operands that pass its checks (rule R165). -/
theorem exec_filtList : exec (.filtList e sp v) s = .next (delivered (okResponse (.packets
    (((filterRanges e sp r).map (validOnly r.samples (supplied v r.valid))).filter fun sub => sub ≠ [])))) := by
  rw [← filterList_eq_filter (valid_length_of_signalsFit hfit)]
  exact exec_delivers hr (answer_ok (checkFilter_passes.2 ⟨hlen, hfit⟩))

/-- What `FILT_ONE` answers to operands that pass its checks (rule R166). -/
theorem exec_filtOne : exec (.filtOne e sp v) s = .next (delivered (okResponse (.samples
    (((filterRanges e sp r).head?.map (validOnly r.samples (supplied v r.valid))).getD [])))) := by
  rw [← filterOne_eq_head (valid_length_of_signalsFit hfit)]
  exact exec_delivers hr (answer_ok (checkFilter_passes.2 ⟨hlen, hfit⟩))

end

/-- Settles O40: the ranges of the filter are those of the scan. -/
theorem filtAllKeepsValidSamples : Obligations.FiltAllKeepsValidSamples := by
  unfold Obligations.FiltAllKeepsValidSamples
  exact fun _ _ _ _ _ hr hlen hfit => ⟨_, packetRanges_chain _ _ _, exec_filtAll hr hlen hfit⟩

/-- Settles O41: the ranges of the filter are those of the scan. -/
theorem filtListKeepsPacketsApart : Obligations.FiltListKeepsPacketsApart := by
  unfold Obligations.FiltListKeepsPacketsApart
  exact fun _ _ _ _ _ hr hlen hfit => ⟨_, packetRanges_chain _ _ _, exec_filtList hr hlen hfit⟩

/-- Settles O42: the ranges of the filter are those of the scan. -/
theorem filtOneTakesFirstRange : Obligations.FiltOneTakesFirstRange := by
  unfold Obligations.FiltOneTakesFirstRange
  exact fun _ _ _ _ _ hr hlen hfit => ⟨_, packetRanges_chain _ _ _, exec_filtOne hr hlen hfit⟩

/-! ### Relations among the four operations (rule R167) -/

section
variable {α β : Type}

/-- Dropping the empty lists loses no element. -/
theorem flatMap_eq_flatten_filter_map (f : α → List β) (xs : List α) :
    xs.flatMap f = ((xs.map f).filter fun sub => sub ≠ []).flatten := by
  rw [List.flatten_filter_ne_nil, List.flatMap_def]

/-- A first list that is not empty is not dropped. -/
theorem head?_filter_map_of_ne_nil {f : α → List β} {xs : List α} (h : (xs.head?.map f).getD [] ≠ []) :
    ((xs.map f).filter fun sub => sub ≠ []).head? = some ((xs.head?.map f).getD []) := by
  cases xs with
  | nil => exact absurd rfl h
  | cons x xs =>
    have hx : f x ≠ [] := h
    simp [hx]

end

/-- The sub-sequence of a range inside the data is not empty (rule R163). -/
theorem subsequence_ne_nil {α : Type} {xs : List α} {p : PacketRange} (hp : p.start < p.stop ∧ p.stop ≤ xs.length) :
    subsequence xs p ≠ [] := by
  have hlength : (subsequence xs p).length = p.stop - p.start := by
    simp only [subsequence, List.length_take, List.length_drop]
    omega
  exact List.ne_nil_of_length_pos (by omega)

/-- Without a validity signal no list is empty, so none is dropped. -/
theorem filter_map_validOnly_none {α : Type} {xs : List α} {rs : List PacketRange}
    (hrs : ∀ p ∈ rs, p.start < p.stop ∧ p.stop ≤ xs.length) :
    ((rs.map (validOnly xs none)).filter fun sub => sub ≠ []) = rs.map (subsequence xs) := by
  refine List.filter_eq_self.2 fun sub hsub => ?_
  obtain ⟨p, hp, rfl⟩ := List.mem_map.1 hsub
  exact decide_eq_true (subsequence_ne_nil (hrs p hp))

/-- Settles O43: on the same operands all four operations use the same ranges. -/
theorem packetizerOperationsAgree : Obligations.PacketizerOperationsAgree := by
  unfold Obligations.PacketizerOperationsAgree
  intro e sp v s r hr hcount hlen hfit
  have hranges : exec (.pktRanges e sp) s = .next (delivered (okResponse (.ranges (filterRanges e sp r)))) := by
    rw [exec_pktRanges hr (hcount ▸ hlen) (hcount ▸ fun bits h => hfit bits (List.mem_cons_of_mem _ h)), hcount,
      filterRanges]
  refine ⟨_, _, _, _, hranges, exec_filtAll hr hlen hfit, exec_filtList hr hlen hfit, exec_filtOne hr hlen hfit,
    flatMap_eq_flatten_filter_map _ _, ?_, rfl, head?_filter_map_of_ne_nil⟩
  rintro rfl
  exact filter_map_validOnly_none fun _ => packetRanges_bounds

end Sys2Proof.Machine
end

section
/-!
PROOFS. The statement of 43_packetizer.md about control tokens (rule R160). The idea: reading a further digit in a base of
at least 2 never lowers the value read so far and at least doubles it, so a numeral of value 1 is zeros and a final 1.
-/

namespace Sys2Proof.Machine

/-! ### Digits -/

/-- A digit is `0` to `9` at its offset from `0`, or a letter of value 10 or more. -/
theorem digitValue_eq_some {base d : Nat} {c : Char} (h : digitValue base c = some d) : c.toNat = d + 48 ∨ 10 ≤ d := by
  unfold digitValue at h
  split at h
  · next hdigit =>
    have hlo : 48 ≤ c.toNat := hdigit.1
    split at h <;> simp only [Option.some.injEq, reduceCtorEq] at h
    omega
  · split at h
    · next hletter =>
      have hlo : 97 ≤ c.toNat := hletter.1
      split at h <;> simp only [Option.some.injEq, reduceCtorEq] at h
      omega
    · cases h

section
variable {base : Nat} (hbase : 2 ≤ base) {c : Char}
include hbase

theorem digitValue_zero : digitValue base '0' = some 0 := by
  simp [digitValue, show 0 < base by omega]

theorem digitValue_one : digitValue base '1' = some 1 := by
  simp [digitValue, show 1 < base by omega]

theorem digitValue_eq_zero_iff : digitValue base c = some 0 ↔ c = '0' := by
  refine ⟨fun h => ?_, fun h => h ▸ digitValue_zero hbase⟩
  rcases digitValue_eq_some h with h | h
  · exact Char.toNat_inj.1 h
  · omega

theorem digitValue_eq_one_iff : digitValue base c = some 1 ↔ c = '1' := by
  refine ⟨fun h => ?_, fun h => h ▸ digitValue_one hbase⟩
  rcases digitValue_eq_some h with h | h
  · exact Char.toNat_inj.1 h
  · omega

end

/-! ### Numerals of value 1 -/

/-- All that reading a digit and the rest can answer. -/
theorem numeralFrom_cons_eq_some {base acc v : Nat} {c : Char} {cs : List Char} :
    numeralFrom base acc (c :: cs) = some v ↔
      ∃ d, digitValue base c = some d ∧ numeralFrom base (acc * base + d) cs = some v := by
  cases h : digitValue base c <;> simp [numeralFrom, h]

section
variable {base : Nat} (hbase : 2 ≤ base) {acc v : Nat} {cs : List Char}
include hbase

/-- A further digit never lowers the value. -/
theorem le_of_numeralFrom (h : numeralFrom base acc cs = some v) : acc ≤ v := by
  induction cs generalizing acc with
  | nil => exact (Option.some.inj h).le
  | cons c cs ih =>
    obtain ⟨d, -, hrest⟩ := numeralFrom_cons_eq_some.1 h
    have hmul : acc ≤ acc * base := Nat.le_mul_of_pos_right acc (by omega)
    have hle := ih hrest
    omega

/-- Once the value is 1, it stays 1 only at the end of the text. -/
theorem numeralFrom_one_eq_one_iff : numeralFrom base 1 cs = some 1 ↔ cs = [] := by
  cases cs with
  | nil => simp [numeralFrom]
  | cons c cs =>
    refine ⟨fun h => ?_, nofun⟩
    obtain ⟨d, -, hrest⟩ := numeralFrom_cons_eq_some.1 h
    have hle := le_of_numeralFrom hbase hrest
    omega

/-- As long as the value is 0, a digit 0 leaves it 0 and the digit 1 has to be the last one. -/
theorem numeralFrom_zero_eq_one_iff :
    numeralFrom base 0 cs = some 1 ↔ ∃ k : Nat, cs = List.replicate k '0' ++ ['1'] := by
  induction cs with
  | nil => simp [numeralFrom]
  | cons c cs ih =>
    simp only [numeralFrom_cons_eq_some, Nat.zero_mul, Nat.zero_add]
    constructor
    · rintro ⟨d, hd, hrest⟩
      have hle := le_of_numeralFrom hbase hrest
      obtain rfl | rfl : d = 0 ∨ d = 1 := by omega
      · obtain rfl := (digitValue_eq_zero_iff hbase).1 hd
        obtain ⟨k, rfl⟩ := ih.1 hrest
        exact ⟨k + 1, rfl⟩
      · obtain rfl := (digitValue_eq_one_iff hbase).1 hd
        obtain rfl := (numeralFrom_one_eq_one_iff hbase).1 hrest
        exact ⟨0, rfl⟩
    · rintro ⟨k, hk⟩
      cases k with
      | zero =>
        obtain ⟨rfl, rfl⟩ := List.cons.inj hk
        exact ⟨1, digitValue_one hbase, rfl⟩
      | succ k =>
        obtain ⟨rfl, rfl⟩ := List.cons.inj hk
        exact ⟨0, digitValue_zero hbase, ih.2 ⟨k, rfl⟩⟩

theorem numeral_eq_one_iff : numeral base cs = some 1 ↔ ∃ k : Nat, cs = List.replicate k '0' ++ ['1'] := by
  rw [← numeralFrom_zero_eq_one_iff hbase, numeral]
  split
  · next h => simp [h, numeralFrom]
  · rfl

end

/-! ### Asserted texts -/

theorem prefixedOne_eq_true_iff {cs : List Char} : prefixedOne cs = true ↔
    ∃ k : Nat, cs = '0' :: 'x' :: (List.replicate k '0' ++ ['1']) ∨ cs = '0' :: 'b' :: (List.replicate k '0' ++ ['1']) := by
  unfold prefixedOne
  split
  · simp [numeral_eq_one_iff]
  · simp [numeral_eq_one_iff]
  · next hx hb =>
    simp only [Bool.false_eq_true, false_iff, not_exists, not_or]
    exact fun k => ⟨hx _, hb _⟩

/-- Settles O54: the literal `1` is the decimal numeral without leading zeros, and the numerals of value 1 are zeros and a
final 1. -/
theorem assertedExactlyValueOne : Obligations.AssertedExactlyValueOne := by
  unfold Obligations.AssertedExactlyValueOne
  refine ⟨fun n => by simp [asserted], fun cs => ?_⟩
  have hliteral : cs = ['1'] → ∃ k : Nat, cs = List.replicate k '0' ++ ['1'] := fun h => ⟨0, h⟩
  simp only [asserted, assertedLiterals, Bool.or_eq_true, decide_eq_true_eq, List.contains_iff_mem, List.mem_cons,
    List.not_mem_nil, or_false, numeral_eq_one_iff (show 2 ≤ 10 by decide), prefixedOne_eq_true_iff, exists_or]
  tauto

end Sys2Proof.Machine
end

section
/-!
PROOFS. The statements of 44_lane_mux.md: bad layouts (rule R190), the demultiplexers (rules R191, R192), the
multiplexers (rules R193, R194) and that they undo each other (rule R195). The idea: each operation is known by its
elements, a flat stream's by word `w` and lane `i` as element `w*N + i`; packing then extracting a lane reads it modulo
`2^sample_bits`, and a word is determined by its lanes.
-/

namespace Sys2Proof.Machine

/-! ### The layout check comes first (rule R190) -/

section
variable {P : Params} {r : Request}

theorem checkLaneLayout_of_no_lanes (h : r.lanes < 1) :
    firstFailure (checkLaneLayout P r) = some ⟨.formatError, .operand .lanes⟩ := by
  simp [checkLaneLayout, h]

/-- Once there is a lane, only the widths are left to fail. -/
theorem checkLaneLayout_of_bad_widths (h : 1 ≤ r.lanes) (hbad : ¬ legalLaneWidths P r) :
    ∃ info, firstFailure (checkLaneLayout P r) = some ⟨.configurationError, info⟩ := by
  have hlanes : decide (r.lanes < 1) = false := decide_eq_false (by omega)
  have hfail : ¬ ∀ c ∈ checkLaneLayout P r, c = none := fun hp => hbad (checkLaneLayout_passes.1 hp).2
  simp only [checkLaneLayout, hlanes, failIf_false, firstFailure_none, List.forall_mem_cons, true_and] at hfail ⊢
  refine firstFailure_status (fun x hx => ?_) (by simpa using hfail)
  simp only [List.mem_cons, List.not_mem_nil, or_false] at hx
  rcases hx with hx | hx | hx <;> rw [(failIf_eq_some hx.symm).2]

/-- Every lane operation checks the layout before anything else. -/
theorem responseOf_lanes_eq_answer {i : Instr} (hi : i ∈ [.laneDemuxSer, .laneDemuxPar, .laneMuxSer, .laneMuxPar]) :
    ∃ rest x, responseOf P i r = answer (checkLaneLayout P r ++ rest) x := by
  simp only [List.mem_cons, List.not_mem_nil, or_false] at hi
  rcases hi with rfl | rfl | rfl | rfl
  · exact ⟨[], _, rfl⟩
  · exact ⟨[], _, rfl⟩
  · exact ⟨[checkFlat r], _, rfl⟩
  · exact ⟨[checkStreamCount r, checkStreamLengths r], _, rfl⟩

/-- A legal layout leaves the decision to the checks of the data. -/
theorem answer_of_legalLanes (h : legalLanes P r) (rest : List (Option Raise)) (x : Result) :
    answer (checkLaneLayout P r ++ rest) x = answer rest x := by
  simp [answer, firstFailure_append, firstFailure_eq_none.2 (checkLaneLayout_passes.2 h)]

end

/-- Settles O53: the first failure of the layout check decides the answer. -/
theorem badLaneLayoutRaisesInOrder : Obligations.BadLaneLayoutRaisesInOrder := by
  unfold Obligations.BadLaneLayoutRaisesInOrder
  intro i s r hi hr
  obtain ⟨rest, x, hx⟩ := responseOf_lanes_eq_answer (P := Config.params) (r := r) hi
  refine ⟨fun hno => ⟨.operand .lanes, exec_delivers hr ?_⟩, fun hlanes hbad => ?_⟩
  · rw [hx, answer_fault (checkLaneLayout_of_no_lanes hno), faultResponse_eq_faulted]
  · obtain ⟨info, hfail⟩ := checkLaneLayout_of_bad_widths hlanes hbad
    exact ⟨info, exec_delivers hr (by rw [hx, answer_fault hfail, faultResponse_eq_faulted])⟩

/-! ### The checks of the data (rules R193, R194) -/

section
variable {P : Params} {r : Request}

theorem checkFlat_eq_none : checkFlat r = none ↔ r.flat.length % r.lanes.toNat = 0 := by
  simp [checkFlat, failIf_eq_none]

theorem streamLength_eq {streams : List (List Int)} {len : Nat} (hne : streams ≠ [])
    (h : ∀ stream ∈ streams, stream.length = len) : streamLength streams = len := by
  cases streams with
  | nil => exact absurd rfl hne
  | cons xs rest => exact h xs List.mem_cons_self

/-- The length check compares with the first stream, so it passes exactly on streams of one length. -/
theorem checkStreamLengths_eq_none :
    checkStreamLengths r = none ↔ ∃ len, ∀ stream ∈ r.streams, stream.length = len := by
  have hfirst : checkStreamLengths r = none ↔ ∀ stream ∈ r.streams, stream.length = streamLength r.streams := by
    simp [checkStreamLengths, failIf_eq_none]
  rw [hfirst]
  refine ⟨fun h => ⟨_, h⟩, fun ⟨len, h⟩ stream hmem => ?_⟩
  rw [streamLength_eq (List.ne_nil_of_mem hmem) h, h stream hmem]

theorem checkStreams_passes : (∀ c ∈ [checkStreamCount r, checkStreamLengths r], c = none) ↔
    r.streams.length = r.lanes.toNat ∧ ∃ len, ∀ stream ∈ r.streams, stream.length = len := by
  simp [← checkStreamLengths_eq_none, checkStreamCount, failIf_eq_none]

theorem checkStreams_status {x : Raise} (h : some x ∈ [checkStreamCount r, checkStreamLengths r]) :
    x.status = .lengthMismatchError := by
  simp only [List.mem_cons, List.not_mem_nil, or_false] at h
  rcases h with h | h <;> rw [(failIf_eq_some h.symm).2]

/-- On a legal layout, a flat stream with a part of a word left over decides the answer. -/
theorem serveLaneMuxSer_of_ragged (h : legalLanes P r) (hbad : r.flat.length % r.lanes.toNat ≠ 0) :
    ∃ info, serveLaneMuxSer P r = faulted .lengthMismatchError info := by
  refine ⟨.operand .flat, ?_⟩
  rw [serveLaneMuxSer, answer_of_legalLanes h]
  simp [answer, checkFlat, hbad, faultResponse_eq_faulted]

/-- On a legal layout, a wrong number of streams or unequal lengths decide the answer. -/
theorem serveLaneMuxPar_of_ragged (h : legalLanes P r)
    (hbad : ¬ (r.streams.length = r.lanes.toNat ∧ ∃ len, ∀ stream ∈ r.streams, stream.length = len)) :
    ∃ info, serveLaneMuxPar P r = faulted .lengthMismatchError info := by
  rw [serveLaneMuxPar, answer_of_legalLanes h]
  exact answer_faulted_of_first_checks (fun _ => checkStreams_status) (mt checkStreams_passes.1 hbad) [] _

end

/-- Settles O51: the checks of the data decide the answer, whatever the maxima are. -/
theorem raggedLanesRaiseLengthMismatch : Obligations.RaggedLanesRaiseLengthMismatch := by
  unfold Obligations.RaggedLanesRaiseLengthMismatch
  refine ⟨fun s r hr h => ⟨fun hbad => ?_, fun hbad => ?_⟩,
    fun P r h => ⟨serveLaneMuxSer_of_ragged h, serveLaneMuxPar_of_ragged h⟩⟩
  · exact (serveLaneMuxSer_of_ragged h hbad).imp fun _ => exec_delivers (i := .laneMuxSer) hr
  · exact (serveLaneMuxPar_of_ragged h hbad).imp fun _ => exec_delivers (i := .laneMuxPar) hr

/-! ### What the operations answer to operands that pass their checks -/

section
variable {s : State} {r : Request} (hr : s.inFlight = some r) (h : legalLanes Config.params r)
include hr h

theorem exec_laneDemuxSer : exec .laneDemuxSer s = .next (delivered (okResponse
    (.flat r.sampleBits.toNat (demuxSerial r.lanes.toNat r.sampleBits.toNat r.words)))) :=
  exec_delivers hr (answer_ok (checkLaneLayout_passes.2 h))

theorem exec_laneDemuxPar : exec .laneDemuxPar s = .next (delivered (okResponse
    (.streams r.sampleBits.toNat (demuxParallel r.lanes.toNat r.sampleBits.toNat r.words)))) :=
  exec_delivers hr (answer_ok (checkLaneLayout_passes.2 h))

theorem exec_laneMuxSer (hlen : r.flat.length % r.lanes.toNat = 0) :
    exec .laneMuxSer s = .next (delivered (okResponse (.words (r.lanes.toNat * r.sampleBits.toNat)
      (muxSerial r.lanes.toNat r.sampleBits.toNat r.flat)))) :=
  exec_delivers hr ((answer_of_legalLanes h _ _).trans (answer_ok (by simpa using checkFlat_eq_none.2 hlen)))

theorem exec_laneMuxPar (hcount : r.streams.length = r.lanes.toNat)
    (hlen : ∃ len, ∀ stream ∈ r.streams, stream.length = len) :
    exec .laneMuxPar s = .next (delivered (okResponse (.words (r.lanes.toNat * r.sampleBits.toNat)
      (muxParallel r.lanes.toNat r.sampleBits.toNat r.streams)))) :=
  exec_delivers hr ((answer_of_legalLanes h _ _).trans (answer_ok (checkStreams_passes.2 ⟨hcount, hlen⟩)))

end

/-! ### The elements of the results -/

/-- Element `i` of block `w` of a sequence that is made of blocks of length `n`. -/
theorem getElem?_flatMap_block {α β : Type} {f : α → List β} {n i : Nat} (hf : ∀ x, (f x).length = n) (hi : i < n)
    (xs : List α) (w : Nat) : (xs.flatMap f)[w * n + i]? = xs[w]?.bind fun x => (f x)[i]? := by
  induction xs generalizing w with
  | nil => simp
  | cons x xs ih =>
    rw [List.flatMap_cons]
    cases w with
    | zero => simp [List.getElem?_append_left (show i < (f x).length by rw [hf]; exact hi)]
    | succ w =>
      have hidx : (w + 1) * n + i = n + (w * n + i) := by ring
      rw [List.getElem?_append_right (by rw [hf, hidx]; omega), hf, hidx, Nat.add_sub_cancel_left, ih,
        List.getElem?_cons_succ]

/-- Sequences that agree at every place of every block of length `n` are equal. -/
theorem ext_of_blocks {α : Type} {n : Nat} (hn : 0 < n) {xs ys : List α}
    (h : ∀ w i, i < n → xs[w * n + i]? = ys[w * n + i]?) : xs = ys := by
  refine List.ext_getElem? fun j => ?_
  have := h (j / n) (j % n) (Nat.mod_lt j hn)
  rwa [Nat.div_add_mod'] at this

/-- An element of a whole block lies in the data. -/
theorem block_index_lt {n len w i : Nat} (hw : w < len / n) (hi : i < n) : w * n + i < len :=
  calc w * n + i < (w + 1) * n := by rw [add_mul, one_mul]; omega
    _ ≤ len / n * n := Nat.mul_le_mul_right n hw
    _ ≤ len := Nat.div_mul_le_self len n

section
variable {n sb i : Nat}

theorem length_lanesOf (n sb : Nat) (x : Int) : (lanesOf n sb x).length = n := by simp [lanesOf]

theorem length_demuxSerial (n sb : Nat) (words : List Int) : (demuxSerial n sb words).length = n * words.length := by
  simp [demuxSerial, List.length_flatMap, length_lanesOf, mul_comm]

/-- Element `w*N + i` of the flat stream is lane `i` of word `w` (rule R191). -/
theorem getElem?_demuxSerial (hi : i < n) (words : List Int) (w : Nat) :
    (demuxSerial n sb words)[w * n + i]? = words[w]?.map fun x => (x / 2 ^ (i * sb) % 2 ^ sb).toNat := by
  rw [demuxSerial, getElem?_flatMap_block (length_lanesOf n sb) hi, Option.map_eq_bind]
  congr 1
  funext x
  simp [lanesOf, hi, laneOf_tc]

theorem length_demuxParallel (n sb : Nat) (words : List Int) : (demuxParallel n sb words).length = n := by
  simp [demuxParallel]

/-- Stream `i` holds lane `i` of every word (rule R192). -/
theorem getElem?_demuxParallel (hi : i < n) (words : List Int) :
    (demuxParallel n sb words)[i]? = some (words.map fun x => (x / 2 ^ (i * sb) % 2 ^ sb).toNat) := by
  simp [demuxParallel, hi, laneOf_tc]

theorem getElem?_map_range {α : Type} (f : Nat → α) (m w : Nat) :
    ((List.range m).map f)[w]? = if w < m then some (f w) else none := by
  rw [List.getElem?_map]
  split_ifs with hw
  · rw [List.getElem?_range hw, Option.map_some]
  · rw [List.getElem?_eq_none (by simpa using hw), Option.map_none]

theorem length_muxSerial (n sb : Nat) (flat : List Int) : (muxSerial n sb flat).length = flat.length / n := by
  simp [muxSerial]

/-- Word `w` packs block `w` of the flat stream (rule R193). -/
theorem getElem?_muxSerial (n sb : Nat) (flat : List Int) (w : Nat) : (muxSerial n sb flat)[w]? =
    if w < flat.length / n then some (packLanes n sb fun i => flat.getD (w * n + i) 0) else none :=
  getElem?_map_range _ _ _

theorem length_muxParallel (n sb : Nat) (streams : List (List Int)) :
    (muxParallel n sb streams).length = streamLength streams := by
  simp [muxParallel]

/-- Word `w` packs element `w` of every stream (rule R194). -/
theorem getElem?_muxParallel (n sb : Nat) (streams : List (List Int)) (w : Nat) : (muxParallel n sb streams)[w]? =
    if w < streamLength streams then some (packLanes n sb fun i => (streams.getD i []).getD w 0) else none :=
  getElem?_map_range _ _ _

end

/-- A legal layout has a lane. -/
theorem lanes_pos {P : Params} {r : Request} (h : legalLanes P r) : 0 < r.lanes.toNat := by
  have := h.1
  omega

/-- With at least one lane there is a first stream, so the common length is its length. -/
theorem streamLength_of_lanes {P : Params} {r : Request} {len : Nat} (h : legalLanes P r)
    (hcount : r.streams.length = r.lanes.toNat) (hlen : ∀ stream ∈ r.streams, stream.length = len) :
    streamLength r.streams = len :=
  streamLength_eq (List.ne_nil_of_length_pos (hcount ▸ lanes_pos h)) hlen

/-! ### Extracting and packing, element by element -/

/-- Settles O47: element by element. -/
theorem laneDemuxSerialFlattensLanes : Obligations.LaneDemuxSerialFlattensLanes := by
  unfold Obligations.LaneDemuxSerialFlattensLanes
  intro s r hr h
  refine ⟨_, exec_laneDemuxSer hr h, length_demuxSerial _ _ _, fun w i word hword hi => ?_⟩
  rw [getElem?_demuxSerial hi, hword, Option.map_some]

/-- Settles O48: stream by stream. -/
theorem laneDemuxParallelGathersStreams : Obligations.LaneDemuxParallelGathersStreams := by
  unfold Obligations.LaneDemuxParallelGathersStreams
  intro s r hr h
  refine ⟨_, exec_laneDemuxPar hr h, length_demuxParallel _ _ _, fun i hi => ?_⟩
  refine ⟨_, getElem?_demuxParallel hi _, List.length_map _, fun w word hword => ?_⟩
  rw [List.getElem?_map, hword, Option.map_some]

/-- Settles O49: each lane of a packed word is the element packed there. -/
theorem laneMuxSerialPacksWords : Obligations.LaneMuxSerialPacksWords := by
  unfold Obligations.LaneMuxSerialPacksWords
  intro s r hr h hlen
  refine ⟨_, exec_laneMuxSer hr h hlen, length_muxSerial _ _ _, fun w word hword => ?_⟩
  rw [getElem?_muxSerial, Option.ite_none_right_eq_some, Option.some_inj] at hword
  obtain ⟨hw, rfl⟩ := hword
  refine ⟨packLanes_lt _ _ _, fun i hi => ⟨_, List.getElem?_eq_getElem (block_index_lt hw hi), ?_⟩⟩
  rw [laneOf_packLanes _ hi, tc_eq, List.getD_eq_getElem]

/-- Settles O50: each lane of a packed word is the element packed there. -/
theorem laneMuxParallelPacksWords : Obligations.LaneMuxParallelPacksWords := by
  unfold Obligations.LaneMuxParallelPacksWords
  intro s r len hr h hcount hlen
  have hfirst := streamLength_of_lanes h hcount hlen
  refine ⟨_, exec_laneMuxPar hr h hcount ⟨len, hlen⟩, by rw [length_muxParallel, hfirst], fun w word hword => ?_⟩
  rw [getElem?_muxParallel, hfirst, Option.ite_none_right_eq_some, Option.some_inj] at hword
  obtain ⟨hw, rfl⟩ := hword
  refine ⟨packLanes_lt _ _ _, fun i stream hstream => ?_⟩
  have hi : i < r.lanes.toNat := hcount ▸ (List.getElem?_eq_some_iff.1 hstream).1
  have hw' : w < stream.length := by rwa [hlen stream (List.mem_of_getElem? hstream)]
  have hget : r.streams.getD i [] = stream := by rw [List.getD_eq_getElem?_getD, hstream, Option.getD_some]
  refine ⟨_, List.getElem?_eq_getElem hw', ?_⟩
  rw [laneOf_packLanes _ hi, tc_eq, hget, List.getD_eq_getElem]

/-! ### Packing and extracting undo each other (rule R195) -/

section
variable {n sb : Nat}

theorem tc_of_mem {x : Int} (h : 0 ≤ x ∧ x < 2 ^ sb) : tc sb x = x.toNat := by
  rw [tc_eq, Int.emod_eq_of_lt h.1 h.2]

/-- A lane taken from a packed word is the lane value packed there, modulo `2^sample_bits`. -/
theorem lane_of_packed {i : Nat} (lane : Nat → Int) (hi : i < n) :
    ((packLanes n sb lane : Int) / 2 ^ (i * sb) % 2 ^ sb).toNat = tc sb (lane i) := by
  rw [← laneOf_packLanes lane hi]
  norm_cast

/-- Packing the lanes of a word gives the word back. -/
theorem packLanes_of_lanes {x : Int} (hx : 0 ≤ x ∧ x < 2 ^ (n * sb)) {lane : Nat → Int}
    (h : ∀ i, i < n → lane i = ((x / 2 ^ (i * sb) % 2 ^ sb).toNat : Int)) : packLanes n sb lane = x.toNat := by
  obtain ⟨p, rfl⟩ := Int.eq_ofNat_of_zero_le hx.1
  have hp : p < 2 ^ (n * sb) := by exact_mod_cast hx.2
  refine eq_of_lanes_eq (packLanes_lt n sb lane) hp fun i hi => ?_
  have hlane : lane i = (p / 2 ^ (i * sb) % 2 ^ sb : Nat) := by rw [h i hi]; norm_cast
  rw [laneOf_packLanes lane hi, hlane, tc_natCast, Nat.mod_mod, Int.toNat_natCast]

theorem demuxSerial_muxSerial (hn : 0 < n) {flat : List Int} (hlen : flat.length % n = 0)
    (hflat : ∀ x ∈ flat, 0 ≤ x ∧ x < 2 ^ sb) :
    demuxSerial n sb ((muxSerial n sb flat).map fun x : Nat => (x : Int)) = flat.map Int.toNat := by
  refine ext_of_blocks hn fun w i hi => ?_
  rw [getElem?_demuxSerial hi, List.getElem?_map, List.getElem?_map, getElem?_muxSerial]
  split_ifs with hw
  · have hj := block_index_lt hw hi
    simp only [Option.map_some, lane_of_packed _ hi, List.getD_eq_getElem _ _ hj, List.getElem?_eq_getElem hj,
      tc_of_mem (hflat _ (List.getElem_mem hj))]
  · have hend : flat.length ≤ w * n + i :=
      calc flat.length = flat.length / n * n := (Nat.div_mul_cancel (Nat.dvd_of_mod_eq_zero hlen)).symm
        _ ≤ w * n := Nat.mul_le_mul_right n (not_lt.1 hw)
        _ ≤ w * n + i := Nat.le_add_right _ _
    simp [List.getElem?_eq_none hend]

theorem muxSerial_demuxSerial (hn : 0 < n) {words : List Int} (hwords : ∀ x ∈ words, 0 ≤ x ∧ x < 2 ^ (n * sb)) :
    muxSerial n sb ((demuxSerial n sb words).map fun x : Nat => (x : Int)) = words.map Int.toNat := by
  refine List.ext_getElem? fun w => ?_
  rw [getElem?_muxSerial, List.length_map, length_demuxSerial, Nat.mul_div_cancel_left _ hn, List.getElem?_map]
  split_ifs with hw
  · rw [List.getElem?_eq_getElem hw, Option.map_some, packLanes_of_lanes (hwords _ (List.getElem_mem hw))]
    intro i hi
    simp [List.getD_eq_getElem?_getD, getElem?_demuxSerial hi, hw]
  · simp [not_lt.1 hw]

theorem demuxParallel_muxParallel {streams : List (List Int)} (hcount : streams.length = n)
    (hlen : ∀ stream ∈ streams, stream.length = streamLength streams)
    (hstreams : ∀ stream ∈ streams, ∀ x ∈ stream, 0 ≤ x ∧ x < 2 ^ sb) :
    demuxParallel n sb ((muxParallel n sb streams).map fun x : Nat => (x : Int)) =
      streams.map (List.map Int.toNat) := by
  refine List.ext_getElem? fun i => ?_
  rcases lt_or_ge i n with hi | hi
  · have hi' : i < streams.length := hcount ▸ hi
    have hmem : streams[i] ∈ streams := List.getElem_mem hi'
    rw [getElem?_demuxParallel hi, List.getElem?_map, List.getElem?_eq_getElem hi', Option.map_some, Option.some_inj]
    refine List.ext_getElem? fun w => ?_
    rw [List.getElem?_map, List.getElem?_map, List.getElem?_map, getElem?_muxParallel, ← hlen _ hmem]
    split_ifs with hw
    · simp only [Option.map_some, lane_of_packed _ hi, List.getD_eq_getElem _ _ hi', List.getD_eq_getElem _ _ hw,
        List.getElem?_eq_getElem hw, tc_of_mem (hstreams _ hmem _ (List.getElem_mem hw))]
    · simp [not_lt.1 hw]
  · rw [List.getElem?_eq_none (by rwa [length_demuxParallel]), List.getElem?_eq_none (by rwa [List.length_map, hcount])]

/-- Read back as operands, the streams of `LANE_DEMUX.PAR` have one element for each word. -/
theorem length_of_mem_demuxParallel_cast {words : List Int} :
    ∀ stream ∈ (demuxParallel n sb words).map (List.map fun x : Nat => (x : Int)), stream.length = words.length := by
  rintro _ hmem
  obtain ⟨xs, hxs, rfl⟩ := List.mem_map.1 hmem
  rw [List.length_map, (demuxParallel_stream hxs).2]

theorem muxParallel_demuxParallel (hn : 0 < n) {words : List Int} (hwords : ∀ x ∈ words, 0 ≤ x ∧ x < 2 ^ (n * sb)) :
    muxParallel n sb ((demuxParallel n sb words).map (List.map fun x : Nat => (x : Int))) = words.map Int.toNat := by
  have hne : (demuxParallel n sb words).map (List.map fun x : Nat => (x : Int)) ≠ [] :=
    List.ne_nil_of_length_pos (by rwa [List.length_map, length_demuxParallel])
  refine List.ext_getElem? fun w => ?_
  rw [getElem?_muxParallel, streamLength_eq hne length_of_mem_demuxParallel_cast, List.getElem?_map]
  split_ifs with hw
  · rw [List.getElem?_eq_getElem hw, Option.map_some, packLanes_of_lanes (hwords _ (List.getElem_mem hw))]
    intro i hi
    simp [List.getD_eq_getElem?_getD, getElem?_demuxParallel hi, hw]
  · simp [not_lt.1 hw]

end

/-- Settles O52: what each operation answers, and that the answers undo each other. -/
theorem lanePackingInverse : Obligations.LanePackingInverse := by
  unfold Obligations.LanePackingInverse
  intro s r hr h
  have hn := lanes_pos h
  refine ⟨fun hlen hflat => ?_, fun hcount hlen hstreams => ?_, fun hwords => ⟨?_, ?_⟩⟩
  · refine ⟨_, _, exec_laneMuxSer hr h hlen, fun t ht => ?_⟩
    rw [exec_laneDemuxSer ht h, demuxSerial_muxSerial hn hlen hflat]
  · refine ⟨_, _, exec_laneMuxPar hr h hcount hlen, fun t ht => ?_⟩
    obtain ⟨len, hlen⟩ := hlen
    rw [exec_laneDemuxPar ht h,
      demuxParallel_muxParallel hcount (by rwa [streamLength_of_lanes h hcount hlen]) hstreams]
  · refine ⟨_, _, exec_laneDemuxSer hr h, fun t ht => ?_⟩
    have hlen : ((demuxSerial r.lanes.toNat r.sampleBits.toNat r.words).map fun x : Nat => (x : Int)).length %
        r.lanes.toNat = 0 := by
      rw [List.length_map, length_demuxSerial, Nat.mul_mod_right]
    rw [exec_laneMuxSer ht h hlen, muxSerial_demuxSerial hn hwords]
  · refine ⟨_, _, exec_laneDemuxPar hr h, fun t ht => ?_⟩
    have hcount : ((demuxParallel r.lanes.toNat r.sampleBits.toNat r.words).map
        (List.map fun x : Nat => (x : Int))).length = r.lanes.toNat := by
      rw [List.length_map, length_demuxParallel]
    rw [exec_laneMuxPar ht h hcount ⟨_, length_of_mem_demuxParallel_cast⟩, muxParallel_demuxParallel hn hwords]

end Sys2Proof.Machine
end

section
/-!
PROOFS. The statement of 60_exceptions.md: the statuses each operation can return (rule R225). The idea: an answer is `OK`
or the fault of one of its checks, and each check raises one status, or one of two; so an operation's row of the summary is
`OK` and the statuses of its checks.
-/

namespace Sys2Proof.Machine

/-! ### The statuses of the checks -/

theorem checkExpRange_status {exp : Nat} {x : Raise} (h : checkExpRange exp = some x) : x.status = .expRangeFault := by
  unfold checkExpRange at h
  split at h <;> cases h
  rfl

theorem checkFlat_status {r : Request} {x : Raise} (h : checkFlat r = some x) : x.status = .lengthMismatchError := by
  rw [(failIf_eq_some h).2]

/-- `PACK_FIX` checks the imaginary code only with `C`; either way its code checks raise `ConfigurationError`. -/
theorem checkPackCodes_status {c : Bool} {r : Request} {x : Raise}
    (h : some x ∈ [checkCode r r.realCode .realCode, if c then checkCode r r.imagCode .imagCode else none]) :
    x.status = .configurationError := by
  cases c with
  | false => exact checkRealCode_status h
  | true => exact checkBothCodes_status h

/-! ### The rows of the summary -/

/-- Every operation can return `OK`. -/
theorem statusAllowed_ok (i : Instr) : statusAllowed i .ok = true := by
  cases i <;> rfl

/-- Every operation but `DEC_FLT`, which has no check, can return `ConfigurationError`. -/
theorem statusAllowed_configurationError {i : Instr} (h : i ≠ .decFlt) :
    statusAllowed i .configurationError = true := by
  cases i with
  | decFlt => exact absurd rfl h
  | _ => rfl

/-- An answer keeps to the operation's row when every fault of its checks does. -/
theorem statusAllowed_answer {i : Instr} {checks : List (Option Raise)} {x : Result}
    (h : ∀ e, some e ∈ checks → statusAllowed i e.status = true) : statusAllowed i (answer checks x).status = true := by
  rcases answer_cases checks x with ⟨-, hx⟩ | ⟨e, he, hx⟩ <;> rw [hx]
  · exact statusAllowed_ok i
  · exact h e he

section
variable {i : Instr} {P : Params} {r : Request} {x : Result}

/-- The row of an operation whose checks all raise `ConfigurationError` (rules R89, R97, R140). -/
theorem statusAllowed_answer_of_configurationError {checks : List (Option Raise)} (hi : i ≠ .decFlt)
    (h : ∀ e, some e ∈ checks → e.status = .configurationError) : statusAllowed i (answer checks x).status = true :=
  statusAllowed_answer fun e he => h e he ▸ statusAllowed_configurationError hi

/-- The row of a Packetizer operation (rule R161). -/
theorem statusAllowed_answer_checkPackets {n : Nat} {valid sop eop : Option (List Bool)} (hi : i ≠ .decFlt)
    (hlen : statusAllowed i .lengthMismatchError = true) :
    statusAllowed i (answer (checkPackets P n valid sop eop) x).status = true := by
  refine statusAllowed_answer fun e he => ?_
  rcases checkPackets_status he with hst | hst <;> rw [hst]
  · exact statusAllowed_configurationError hi
  · exact hlen

/-- The row of a lane operation: the layout check's statuses and those of the checks of the data (rules R190, R193,
R194). -/
theorem statusAllowed_answer_checkLaneLayout {rest : List (Option Raise)} (hi : i ≠ .decFlt)
    (hformat : statusAllowed i .formatError = true) (hrest : ∀ e, some e ∈ rest → statusAllowed i e.status = true) :
    statusAllowed i (answer (checkLaneLayout P r ++ rest) x).status = true := by
  refine statusAllowed_answer fun e he => ?_
  rcases List.mem_append.1 he with he | he
  · rcases checkLaneLayout_status he with hst | hst <;> rw [hst]
    · exact hformat
    · exact statusAllowed_configurationError hi
  · exact hrest e he

end

/-- Whatever the parameters are, an operation's response keeps to its row (rule R225). -/
theorem statusAllowed_responseOf (P : Params) (i : Instr) (r : Request) :
    statusAllowed i (responseOf P i r).status = true := by
  cases i with
  | decFix => exact statusAllowed_answer_of_configurationError nofun fun _ => checkFixedFormat_status
  | decCfix c => exact statusAllowed_answer_of_configurationError nofun fun _ => checkFixedFormat_status
  | encFix => exact statusAllowed_answer_of_configurationError nofun fun _ => checkFixedFormat_status
  | packFix c =>
    exact statusAllowed_answer_of_configurationError nofun fun _ he =>
      (List.mem_append.1 he).elim checkFixedFormat_status checkPackCodes_status
  | decFlt => exact statusAllowed_ok .decFlt
  | encFlt =>
    refine statusAllowed_answer fun e he => ?_
    simp only [List.mem_append, List.mem_cons, List.not_mem_nil, or_false] at he
    rcases he with he | he | he | he
    · rw [checkFixedFormat_status he]; rfl
    · rw [checkCode_status he.symm]; rfl
    · rw [checkCode_status he.symm]; rfl
    · rw [checkExpRange_status he.symm]; rfl
  | rndFix w h => exact statusAllowed_answer_of_configurationError nofun fun _ => checkWidths_status
  | satFix => exact statusAllowed_answer_of_configurationError nofun fun _ => checkWidths_status
  | pktRanges e sp => exact statusAllowed_answer_checkPackets nofun rfl
  | filtAll e sp v => exact statusAllowed_answer_checkPackets nofun rfl
  | filtList e sp v => exact statusAllowed_answer_checkPackets nofun rfl
  | filtOne e sp v => exact statusAllowed_answer_checkPackets nofun rfl
  | laneDemuxSer => exact statusAllowed_answer_checkLaneLayout (rest := []) nofun rfl nofun
  | laneDemuxPar => exact statusAllowed_answer_checkLaneLayout (rest := []) nofun rfl nofun
  | laneMuxSer =>
    refine statusAllowed_answer_checkLaneLayout nofun rfl fun e he => ?_
    rw [checkFlat_status (List.mem_singleton.1 he).symm]; rfl
  | laneMuxPar =>
    refine statusAllowed_answer_checkLaneLayout nofun rfl fun e he => ?_
    rw [checkStreams_status he]; rfl

/-- Settles O12: a next state of `exec` holds the response to the request that was in flight. -/
theorem operationsReturnTheirStatuses : Obligations.OperationsReturnTheirStatuses := by
  unfold Obligations.OperationsReturnTheirStatuses
  intro i s t x hstep hresponse
  rw [exec_eq_serve_responseOf] at hstep
  obtain ⟨r, -, rfl⟩ := serve_next hstep
  obtain rfl : responseOf Config.params i r = x := Option.some.inj hresponse
  exact statusAllowed_responseOf Config.params i r

end Sys2Proof.Machine
end

section
/-!
PROOFS. The statements of 70_reset_and_hazards.md: the machine after reset (rule R240). The idea: it is idle and holds no
response, so the response invariant asks nothing and any request can be presented; the request is then in flight, and a
step depends on nothing else.
-/

namespace Sys2Proof.Machine

/-- A machine that holds no response meets the invariant. -/
theorem stateInv_of_no_response {s : State} (h : s.response = none) : stateInv s = true := by
  simp [stateInv, h]

/-- Settles O9: no response is held after reset. -/
theorem resetMeetsResponseInvariant : Obligations.ResetMeetsResponseInvariant := by
  unfold Obligations.ResetMeetsResponseInvariant
  exact stateInv_of_no_response reset_response

/-- After reset any request can be presented, whatever the machine held before. -/
theorem present_assertReset (r : Request) (s : State) :
    present r (assertReset s) = some { State.reset with inFlight := some r } := by
  rw [assertReset_eq, present_of_idle reset_inFlight]

/-- Settles O10: the presented request is in flight, and a step depends on the request in flight alone. -/
theorem resetLeavesMachineReady : Obligations.ResetLeavesMachineReady := by
  unfold Obligations.ResetLeavesMachineReady
  intro s t r
  have hidle : (assertReset s).inFlight = none := by rw [assertReset_eq, reset_inFlight]
  refine ⟨hidle, _, present_assertReset r s, rfl, fun ht => ?_⟩
  rw [step_of_request rfl, step_of_request ht]

end Sys2Proof.Machine
end
